-- ==== Sys2Proof/Word.lean ====
section
/-! DEFINITION. The byte, the word and the block (00_scope.md R6 to R8). A word or a block is a sequence of bytes and is
never read as one number (R7, 20_memory.md R52), so each is a vector of bytes, its first byte at index 0. -/

namespace Sys2Proof

/-- A byte: 8 bits, unsigned, bit 7 the most significant (00_scope.md R6). -/
abbrev Byte := BitVec 8

/-- A word: exactly 4 bytes, `w[0]` its first byte (00_scope.md R7). -/
abbrev Word := Vector Byte 4

/-- A block, or the State matrix: exactly 16 bytes; the byte in row `r`, column `c` is byte `r + 4c` (00_scope.md R8). -/
abbrev Block := Vector Byte 16

end Sys2Proof
end

