-- ==== Sys2Proof/Syntax.lean ====
section
/-! DEFINITION. The instructions: the fourteen rows of spec/opcode_table.json, the three host commands (30_encoding.md R73)
and the eleven micro-ops (R80). -/

namespace Sys2Proof

/-- An instruction of the core. A command carries its frame's LEN and payload (30_encoding.md R71, R72); LEN is an operand, so
a command of any LEN is an instruction (R74). A micro-op's operand is the 6-bit field ARG as it stands (R79). -/
inductive Instr where
  /-- KEYLOAD, OP 0x01: `construct(key)`, the payload is the Secret Key (44_engine.md R167). -/
  | keyload (len : Byte) (payload : List Byte)
  /-- ENCRYPT, OP 0x02: `encryptBlock(block)` (44_engine.md R168). -/
  | encrypt (len : Byte) (payload : List Byte)
  /-- DECRYPT, OP 0x03: `decryptBlock(block)` (44_engine.md R169). -/
  | decrypt (len : Byte) (payload : List Byte)
  /-- ADDROUNDKEY r, UOP 0x1 (43_round_transform.md R146). -/
  | addroundkey (r : BitVec 6)
  /-- SUBBYTES, UOP 0x2 (43_round_transform.md R140). -/
  | subbytes
  /-- SHIFTROWS, UOP 0x3 (43_round_transform.md R142). -/
  | shiftrows
  /-- MIXCOLUMNS, UOP 0x4 (43_round_transform.md R144). -/
  | mixcolumns
  /-- INVSUBBYTES, UOP 0x6 (43_round_transform.md R141). -/
  | invsubbytes
  /-- INVSHIFTROWS, UOP 0x7 (43_round_transform.md R143). -/
  | invshiftrows
  /-- INVMIXCOLUMNS, UOP 0x8 (43_round_transform.md R145). -/
  | invmixcolumns
  /-- LOADSTATE, UOP 0x9 (43_round_transform.md R147). -/
  | loadstate
  /-- STOREOUT, UOP 0xA (43_round_transform.md R148). -/
  | storeout
  /-- KXINIT i, UOP 0xB (42_key_expansion.md R123). -/
  | kxinit (i : BitVec 6)
  /-- KXSTEP i, UOP 0xC (42_key_expansion.md R124). -/
  | kxstep (i : BitVec 6)
  deriving DecidableEq, Repr

end Sys2Proof
end

