-- ==== Sys2Proof/WellFormed.lean ====
section
/-! DEFINITION. Which terms of `Instr` are instructions of the core: a command whose payload is exactly LEN bytes
(30_encoding.md R72), and a micro-op whose ARG is in range for at least one key size (R79, R81). -/

namespace Sys2Proof

/-- A frame is well formed when exactly LEN payload bytes follow its command word (30_encoding.md R72). -/
def frameWellFormed (len : Byte) (payload : List Byte) : Bool := payload.length == len.toNat

/-- An instruction is well formed when its frame is (30_encoding.md R72), or when its ARG is legal for some NK in 4, 6, 8:
a round index 0 to 14, a KXINIT word index 0 to 7, a KXSTEP word index 4 to 59 (R79, R81). Which of those the current NK
allows is `microOpLegal`, in Decode.lean. -/
def Instr.wellFormed : Instr → Bool
  | .keyload len p => frameWellFormed len p
  | .encrypt len p => frameWellFormed len p
  | .decrypt len p => frameWellFormed len p
  | .addroundkey r => r.toNat ≤ 14
  | .subbytes => true
  | .shiftrows => true
  | .mixcolumns => true
  | .invsubbytes => true
  | .invshiftrows => true
  | .invmixcolumns => true
  | .loadstate => true
  | .storeout => true
  | .kxinit i => i.toNat < 8
  | .kxstep i => 4 ≤ i.toNat && i.toNat < 60

end Sys2Proof
end

