-- ==== Sys2Proof/Decode.lean ====
section
/-! DEFINITION. Decoding and encoding (30_encoding.md sections 2, 4 and 5). Two decoders, one per encoded interface (R70): a
command frame from the bytes at the command port, and a micro-op from its 10-bit word under the current NK. Both are total
(R85) and refuse by name. -/

namespace Sys2Proof

/-! ## Operand ranges (30_encoding.md R79, R81) -/

/-- Nk of a loaded key is 4, 6 or 8 (10_state.md R27, R29). -/
def nkLegal (nk : BitVec 4) : Bool := nk == 4 || nk == 6 || nk == 8

/-- Nr = NK + 6, wherever a rule says Nr (10_state.md R28). -/
def nrOf (nk : BitVec 4) : Nat := nk.toNat + 6

/-- NWORDS = 4(Nr + 1), the number of schedule words (10_state.md R28, 42_key_expansion.md R122). -/
def nWords (nk : BitVec 4) : Nat := 4 * (nrOf nk + 1)

/-- Is a micro-op's ARG legal under the current NK (30_encoding.md R81)? ADDROUNDKEY: at most Nr, and never above 14. KXINIT:
below Nk (and within IN). KXSTEP: from Nk to 4(Nr+1) - 1, for an Nk that is a key size. A command is no micro-op. What an NK that is no
key size allows is DEDUCED (log entry 7). -/
def microOpLegal (nk : BitVec 4) : Instr → Bool
  | .addroundkey r => r.toNat ≤ nrOf nk && r.toNat ≤ 14
  | .kxinit i => i.toNat < nk.toNat && i.toNat < 8
  | .kxstep i => nkLegal nk && nk.toNat ≤ i.toNat && i.toNat < nWords nk
  | .subbytes | .shiftrows | .mixcolumns | .invsubbytes | .invshiftrows | .invmixcolumns => true
  | .loadstate | .storeout => true
  | .keyload _ _ | .encrypt _ _ | .decrypt _ _ => false

/-! ## Command frames (30_encoding.md R71 to R74, R77, R85) -/

/-- What the bytes at the command port hold at a frame boundary. -/
inductive FrameDecode where
  /-- Not yet a whole frame: the engine waits for the rest (30_encoding.md R72). -/
  | incomplete
  /-- A whole frame with a reserved opcode (R77): ILLEGAL(OP, LEN); `rest` follows its LEN payload bytes. -/
  | reservedOpcode (op len : Byte) (rest : List Byte)
  /-- A whole frame of a command; `rest` follows its LEN payload bytes. -/
  | command (i : Instr) (rest : List Byte)
  deriving DecidableEq, Repr

/-- The command an opcode names, if it is not reserved (30_encoding.md R73, R85). -/
def commandOf (op len : Byte) (payload : List Byte) : Option Instr :=
  if op = 0x01 then some (.keyload len payload)
  else if op = 0x02 then some (.encrypt len payload)
  else if op = 0x03 then some (.decrypt len payload)
  else none

/-- Decode the frame at the head of the command stream: OP, then LEN, then LEN payload bytes in index order (30_encoding.md
R71, R72, R85). -/
def decodeFrame : List Byte → FrameDecode
  | op :: len :: bytes =>
    if bytes.length < len.toNat then .incomplete
    else match commandOf op len (bytes.take len.toNat) with
      | some i => .command i (bytes.drop len.toNat)
      | none => .reservedOpcode op len (bytes.drop len.toNat)
  | _ => .incomplete

/-! ## Micro-op words (30_encoding.md R78 to R81, R85) -/

/-- Why a micro-op word is refused. -/
inductive DecodeError where
  /-- A reserved micro-op word (30_encoding.md R81). -/
  | reservedMicroOp (mw : BitVec 10)
  deriving DecidableEq, Repr

/-- UOP, bits 9..6 of a micro-op word (30_encoding.md R78). -/
def uopField (mw : BitVec 10) : BitVec 4 := mw.extractLsb' 6 4

/-- ARG, bits 5..0 of a micro-op word (30_encoding.md R78). -/
def argField (mw : BitVec 10) : BitVec 6 := mw.extractLsb' 0 6

/-- A micro-op that takes no operand: its ARG must be 0 (30_encoding.md R79, R81). -/
def noOperand (arg : BitVec 6) (i : Instr) : Option Instr := if arg = 0 then some i else none

/-- Look UOP up in the table of 30_encoding.md R80; 0x0, 0x5, 0xD, 0xE and 0xF are reserved with any ARG (R81). -/
def microOpOf (uop : BitVec 4) (arg : BitVec 6) : Option Instr :=
  match uop.toNat with
  | 0x1 => some (.addroundkey arg)
  | 0x2 => noOperand arg .subbytes
  | 0x3 => noOperand arg .shiftrows
  | 0x4 => noOperand arg .mixcolumns
  | 0x6 => noOperand arg .invsubbytes
  | 0x7 => noOperand arg .invshiftrows
  | 0x8 => noOperand arg .invmixcolumns
  | 0x9 => noOperand arg .loadstate
  | 0xA => noOperand arg .storeout
  | 0xB => some (.kxinit arg)
  | 0xC => some (.kxstep arg)
  | _ => none

/-- Decode a micro-op word: split it into UOP and ARG, look UOP up, check ARG against the current NK (30_encoding.md R85). -/
def decodeMicroOp (nk : BitVec 4) (mw : BitVec 10) : Except DecodeError Instr :=
  match microOpOf (uopField mw) (argField mw) with
  | some i => if microOpLegal nk i then .ok i else .error (.reservedMicroOp mw)
  | none => .error (.reservedMicroOp mw)

/-- Decode a micro-op word for whichever key size allows it: reserved only where it is reserved under every NK. -/
def decodeMicroOpAnyKey (mw : BitVec 10) : Option Instr :=
  match microOpOf (uopField mw) (argField mw) with
  | some i => if i.wellFormed then some i else none
  | none => none

/-! ## The encoder, from the same tables (30_encoding.md R71, R73, R78, R80) -/

/-- An encoded instruction: the bytes of a command frame in the order they are sent, or a micro-op word. -/
inductive Encoded where
  | frame (bytes : List Byte)
  | microOp (mw : BitVec 10)
  deriving DecidableEq, Repr

/-- The frame or word of an instruction. A micro-op word is UOP in bits 9..6 and ARG in bits 5..0. -/
def encode : Instr → Encoded
  | .keyload len p => .frame (0x01 :: len :: p)
  | .encrypt len p => .frame (0x02 :: len :: p)
  | .decrypt len p => .frame (0x03 :: len :: p)
  | .addroundkey r => .microOp (0x1#4 ++ r)
  | .subbytes => .microOp (0x2#4 ++ 0#6)
  | .shiftrows => .microOp (0x3#4 ++ 0#6)
  | .mixcolumns => .microOp (0x4#4 ++ 0#6)
  | .invsubbytes => .microOp (0x6#4 ++ 0#6)
  | .invshiftrows => .microOp (0x7#4 ++ 0#6)
  | .invmixcolumns => .microOp (0x8#4 ++ 0#6)
  | .loadstate => .microOp (0x9#4 ++ 0#6)
  | .storeout => .microOp (0xA#4 ++ 0#6)
  | .kxinit i => .microOp (0xB#4 ++ i)
  | .kxstep i => .microOp (0xC#4 ++ i)

/-! ## Words as spec/opcode_table.json numbers them (log entry 8) -/

/-- A byte of a number, byte 0 the least significant. -/
def byteOf (w k : Nat) : Byte := BitVec.ofNat 8 (w >>> (8 * k))

/-- The table's word as a command frame on the port: OP is bits 15..8 of the first word and is sent first, LEN is bits 7..0
(30_encoding.md R71); payload byte k is the table's byte 2 + k, and is 0 above `nbits`. -/
def tableFrame (nbits w : Nat) : List Byte :=
  let w := w % 2 ^ nbits
  byteOf w 1 :: byteOf w 0 :: (List.range (byteOf w 0).toNat).map fun k => byteOf w (2 + k)

/-- The table's word as a micro-op word: at most 16 bits of it are given, and those above bit 9 are 0. -/
def tableMicroOp (nbits w : Nat) : Option Instr :=
  let w := w % 2 ^ nbits
  if nbits ≤ 16 ∧ w < 1024 then decodeMicroOpAnyKey (BitVec.ofNat 10 w) else none

/-- The instruction the decoders read from a row's bits. The two formats overlap once a 10-bit row is given in whole bytes
(0x0100 is MIXCOLUMNS and also KEYLOAD with LEN 0): a word that is a micro-op word, whose row fixes more of its bits, is read
as one, and any other word of 16 bits or more as a command frame (log entry 8). -/
def decodeTableWord (nbits w : Nat) : Option Instr :=
  match tableMicroOp nbits w with
  | some i => some i
  | none =>
    if nbits < 16 then none
    else match decodeFrame (tableFrame nbits w) with
      | .command i _ => some i
      | _ => none

end Sys2Proof
end

