-- ==== Sys2Proof/Config.lean ====
section
/-! DEFINITION. The fixed parameters of the core (00_scope.md R5) and its one free value: what the byte arrays hold after a
reset event (10_state.md R36, 70_reset_and_hazards.md R220). -/

namespace Sys2Proof.Config

/-- BLOCKLEN, the block size in bytes (00_scope.md R5). -/
def blockLen : Nat := 16

/-- KSMAX, the capacity of the key-schedule store KS in bytes (00_scope.md R5, 20_memory.md R50). -/
def ksBytes : Nat := 240

/-- The byte arrays whose contents a reset event leaves unspecified (10_state.md R36). -/
inductive Store where
  | ks
  | st
  | tmp
  | inBuf
  | out
  deriving DecidableEq, Repr

/-- FREE VALUE (log entry 3). The byte at index `k` of a byte array after reset event number `n`: unspecified
(70_reset_and_hazards.md R220, 93_implementation_defined.md X1, X14). It has no body, so nothing proves a value of it. -/
opaque resetByte (n : Nat) (store : Store) (k : Nat) : Byte

end Sys2Proof.Config
end

