-- ==== Sys2Proof/Machine/State.lean ====
section
/-! DEFINITION. The state of the core as plain data (10_state.md R20), the interface streams a step reads and appends to, the
reasons a step can stop, and the state after reset (R36). -/

namespace Sys2Proof.Machine

/-- The five error names of the core (60_exceptions.md R190). NotImplemented is named and never raised (R193). -/
inductive ErrorName where
  | invalidKeyLength
  | invalidBlockLength
  | notImplemented
  | noKey
  | illegalCommand
  deriving DecidableEq, Repr

/-- A response frame: RS, RLEN, then RLEN payload bytes (30_encoding.md R75). -/
structure Response where
  rs : Byte
  rlen : Byte
  payload : List Byte
  deriving DecidableEq, Repr

/-- The key-schedule store KS: (address, byte) pairs, addresses strictly rising, none outside 0 to 239, none equal to what an
unlisted address reads as (20_memory.md R50; the form is `Memory.wf`, in Ops.lean). -/
abbrev Memory := List Host.Cell

/-- Where a step stops the machine. Both are safe: the spec gives no step there, and no run from reset comes there
(DEDUCED, log entry 12). -/
inductive Fault where
  /-- Raised by `step` when BUSY = 1 and neither EXEC nor COMPLETE is enabled: CMD or NK is no legal value, or UPC is past the
  end of Prog(CMD, NK) (44_engine.md R160). Safe. -/
  | engineStuck
  /-- Raised by ADDROUNDKEY, KXINIT and KXSTEP on an access outside KS (20_memory.md R58) or outside RCON 1 to 10
  (41_tables.md R114). Safe; legal operands never reach it. -/
  | addressOutOfRange
  deriving DecidableEq, Repr

/-- What the model refuses. -/
inductive Refusal where
  /-- An instruction without a meaning yet; raised only by arms of `exec`. Safe. -/
  | notModelled (mnemonic : String)
  /-- A reserved micro-op word: raised by ADDROUNDKEY, KXINIT and KXSTEP on an ARG that NK does not allow, and by `step` on a
  word the decoder refuses (30_encoding.md R81, 93_implementation_defined.md X8). Safe: ORCH never issues one (log entry 7). -/
  | reservedMicroOp (mw : BitVec 10)
  /-- A command term whose payload is not LEN bytes: no well-formed frame, so no command (00_scope.md R12, 30_encoding.md
  R72); raised by KEYLOAD, ENCRYPT and DECRYPT. Safe: the frame decoder never makes one (DEDUCED, log
  entry 13). -/
  | malformedFrame
  deriving DecidableEq, Repr

/-- The machine's state. The first twelve fields are the whole architectural state of 10_state.md R20; the next three are the
interface (30_encoding.md, 70_reset_and_hazards.md R220); the last is the model's own. -/
structure State where
  /-- ST, the State matrix (R21). -/
  st : Block
  /-- TMP, the temporary word of KXSTEP (R22). -/
  tmp : Word
  /-- IN, the payload of the command in progress (R23). -/
  inBuf : Vector Byte 32
  /-- INLEN, the payload length of that command (R23). -/
  inLen : BitVec 6
  /-- OUT, the result block (R24). -/
  out : Block
  /-- KS, the key-schedule store (R30). -/
  ks : Memory
  /-- NK, the key size in words; 0 until the first valid KEYLOAD (R27). -/
  nk : BitVec 4
  /-- KEY_VALID: KS holds a complete schedule for NK (R26). -/
  keyValid : Bool
  /-- BUSY: a command is in progress (R26). -/
  busy : Bool
  /-- CMD, the opcode of the command in progress (R27). -/
  cmd : Byte
  /-- UPC, the index of the next micro-op in Prog(CMD, NK) (R25). -/
  upc : BitVec 6
  /-- STATUS, the status code of the last command that ended (R27). -/
  status : Byte
  /-- The command stream: bytes the host has written that no ACCEPT has consumed, first byte first (30_encoding.md R72;
  DESIGN CHOICE, log entry 11). -/
  cmdPort : List Byte
  /-- The response stream: every frame emitted, oldest first (30_encoding.md R75; DESIGN CHOICE, log entries 5 and 11). -/
  responses : List Response
  /-- The host has asserted reset and the engine has not yet taken it (70_reset_and_hazards.md R220; DESIGN CHOICE, log entry
  6); bytes that arrive at the port while it is set are discarded with the earlier ones (DESIGN CHOICE, log entry 17). -/
  resetReq : Bool
  /-- The model's own: how many reset events were taken, the argument of `Config.resetByte` (log entry 3). -/
  resetCount : Nat
  deriving DecidableEq, Repr

/-- The machine right after reset (10_state.md R36, 70_reset_and_hazards.md R220). ST, TMP, IN and OUT are unspecified there:
00 is this model's named value (DESIGN CHOICE, log entry 1); KS lists nothing (log entry 2). -/
def State.reset : State where
  st := Vector.replicate 16 0
  tmp := Vector.replicate 4 0
  inBuf := Vector.replicate 32 0
  inLen := 0
  out := Vector.replicate 16 0
  ks := []
  nk := 0
  keyValid := false
  busy := false
  cmd := 0
  upc := 0
  status := 0
  cmdPort := []
  responses := []
  resetReq := false
  resetCount := 0

end Sys2Proof.Machine
end

