-- ==== Sys2Proof/Machine/Ops.lean ====
section
/-! DEFINITION. The named operations over the memory KS, the registers and the streams; `raise E` (60_exceptions.md R198), the
core's one way of taking an error; the host's moves and the reset event. -/

namespace Sys2Proof.Machine

/-! ## KS (20_memory.md R50, R51) -/

/-- What a KS byte that nothing has written reads as. The spec leaves it unspecified (10_state.md R36); 00 is this model's
value (DESIGN CHOICE, log entry 2). -/
def Memory.unlisted : Byte := 0

/-- The canonical form below a bound: addresses strictly rising from `lo`, all in KS, no entry equal to `unlisted`. -/
def Memory.wfFrom (lo : Nat) : Memory → Bool
  | [] => true
  | (a, v) :: m => lo ≤ a && a < Config.ksBytes && v != Memory.unlisted && Memory.wfFrom (a + 1) m

/-- The canonical form of KS. -/
def Memory.wf (m : Memory) : Bool := Memory.wfFrom 0 m

/-- One byte of KS. -/
def readByte : Memory → Nat → Byte
  | [], _ => Memory.unlisted
  | (b, v) :: m, a => if a = b then v else readByte m a

/-- Write one byte of KS and keep the canonical form. -/
def writeByte : Memory → Nat → Byte → Memory
  | [], a, v => if v = Memory.unlisted then [] else [(a, v)]
  | (b, w) :: m, a, v =>
    if a < b then (if v = Memory.unlisted then (b, w) :: m else (a, v) :: (b, w) :: m)
    else if a = b then (if v = Memory.unlisted then m else (a, v) :: m)
    else (b, w) :: writeByte m a v

/-- Write a byte sequence at rising addresses. -/
def writeBytes : Memory → Nat → List Byte → Memory
  | m, _, [] => m
  | m, a, v :: vs => writeBytes (writeByte m a v) (a + 1) vs

/-- MemRead(a, n): the bytes at a, a+1, .., a+n-1 (20_memory.md R51); nothing outside KS (R58). -/
def memRead (m : Memory) (a n : Nat) : Option (Vector Byte n) :=
  if a + n ≤ Config.ksBytes then some (Vector.ofFn fun k : Fin n => readByte m (a + k)) else none

/-- MemWrite(a, n, v): byte a+k takes v[k], no other byte changes (20_memory.md R51); nothing outside KS (R58). -/
def memWrite {n : Nat} (m : Memory) (a : Nat) (v : Vector Byte n) : Option Memory :=
  if a + n ≤ Config.ksBytes then some (writeBytes m a v.toList) else none

/-! ## Registers -/

/-- ST <- b. -/
def setSt (s : State) (b : Block) : State := { s with st := b }

/-- OUT <- b. -/
def setOut (s : State) (b : Block) : State := { s with out := b }

/-- TMP <- w. -/
def setTmp (s : State) (w : Word) : State := { s with tmp := w }

/-- KS takes new contents. -/
def setKs (s : State) (m : Memory) : State := { s with ks := m }

/-- UPC <- UPC + 1 (44_engine.md R165). -/
def advanceUpc (s : State) : State := { s with upc := s.upc + 1 }

/-- The command stream without a frame that ACCEPT has removed from it (44_engine.md R161). -/
def setCmdPort (s : State) (rest : List Byte) : State := { s with cmdPort := rest }

/-- Byte-wise XOR of two byte sequences (00_scope.md R6, R7). -/
def xorBytes {n : Nat} (u v : Vector Byte n) : Vector Byte n := Vector.ofFn fun k => u[k] ^^^ v[k]

/-! ## Responses and errors -/

/-- The status code of an error (30_encoding.md R76, 60_exceptions.md R190). -/
def errorCode : ErrorName → Byte
  | .invalidKeyLength => 0x01
  | .invalidBlockLength => 0x02
  | .notImplemented => 0x03
  | .noKey => 0x04
  | .illegalCommand => 0x05

/-- A response frame as the bytes on the response port: RS, RLEN, payload (30_encoding.md R75, 20_memory.md R52 f). -/
def Response.bytes (r : Response) : List Byte := r.rs :: r.rlen :: r.payload

/-- `emit F`: append a frame to the response stream (30_encoding.md R75). -/
def emit (s : State) (r : Response) : State := { s with responses := s.responses ++ [r] }

/-- `raise E`: STATUS <- code(E), emit (code(E), RLEN 0), nothing else (60_exceptions.md R198). There is no return beside it:
nothing was entered, and the engine is idle afterwards (R199). -/
def raiseError (e : ErrorName) (s : State) : State :=
  emit { s with status := errorCode e } ⟨errorCode e, 0, []⟩

/-! ## The host's moves (00_scope.md R11, 70_reset_and_hazards.md R230) and the reset event -/

/-- The host writes bytes to the command port; they wait there until an ACCEPT consumes them (R72, R227)
or a reset discards them (R220; also those written after `hostAssertReset` and before `takeReset`, DESIGN CHOICE, log entry 17). -/
def hostSend (bytes : List Byte) (s : State) : State := { s with cmdPort := s.cmdPort ++ bytes }

/-- The host asserts reset, at any moment (70_reset_and_hazards.md R220); the next step takes it (DESIGN CHOICE,
log entry 6). Bytes sent in between are discarded with the earlier ones (DESIGN CHOICE, log entry 17). -/
def hostAssertReset (s : State) : State := { s with resetReq := true }

/-- The KS contents after reset event number `n`: 240 unspecified bytes, in canonical form. -/
def resetKs (n : Nat) : Memory :=
  (List.range Config.ksBytes).filterMap fun a =>
    if Config.resetByte n .ks a = Memory.unlisted then none else some (a, Config.resetByte n .ks a)

/-- The reset event (70_reset_and_hazards.md R220, R221): the control registers take their reset values, KS, ST, TMP, IN and
OUT become unspecified (free values, log entry 3), bytes not yet accepted are discarded, a command in progress is abandoned
without a response. Frames already emitted stay emitted (DESIGN CHOICE, log entry 5). What is discarded is all that stands at the
port when this step is taken, so also bytes written after `hostAssertReset`: the spec has reset as one event and does not say
(DESIGN CHOICE, log entry 17). -/
def takeReset (s : State) : State where
  st := Vector.ofFn fun k : Fin 16 => Config.resetByte s.resetCount .st k
  tmp := Vector.ofFn fun k : Fin 4 => Config.resetByte s.resetCount .tmp k
  inBuf := Vector.ofFn fun k : Fin 32 => Config.resetByte s.resetCount .inBuf k
  inLen := 0
  out := Vector.ofFn fun k : Fin 16 => Config.resetByte s.resetCount .out k
  ks := resetKs s.resetCount
  nk := 0
  keyValid := false
  busy := false
  cmd := 0
  upc := 0
  status := 0
  cmdPort := []
  responses := s.responses
  resetReq := false
  resetCount := s.resetCount + 1

end Sys2Proof.Machine
end

