-- ==== Sys2Proof/Machine/Operands.lean ====
section
/-! DEFINITION. The operand forms: the legal payload lengths of the commands, the payload latch IN, key words of IN, schedule
words and round keys of KS, and the rows and columns of the State matrix. -/

namespace Sys2Proof.Machine

/-- KEYLOAD's legal LEN: 16, 24 or 32 (30_encoding.md R73). -/
def keyLenLegal (len : Byte) : Bool := len == 16 || len == 24 || len == 32

/-- A block command's legal LEN: 16 (30_encoding.md R73). -/
def blockLenLegal (len : Byte) : Bool := len == 16

/-- NK of a key of LEN bytes: LEN / 4 (10_state.md R29). -/
def nkOfLen (len : Byte) : BitVec 4 := (len / 4).setWidth 4

/-- IN after a payload is latched: IN[k] <- P[k] for k below LEN; the bytes above keep their value (10_state.md R23). -/
def latch (buf : Vector Byte 32) (payload : List Byte) : Vector Byte 32 :=
  Vector.ofFn fun k : Fin 32 => payload.getD k buf[k]

/-- The four bytes IN[4i..4i+3] of key word i (42_key_expansion.md R123), i from 0 to 7. -/
def inWord (buf : Vector Byte 32) (i : Nat) : Word :=
  Vector.ofFn fun k : Fin 4 => buf.toList.getD (4 * i + k) 0

/-- The block IN[0..15] (43_round_transform.md R147). -/
def inBlock (buf : Vector Byte 32) : Block := Vector.ofFn fun k : Fin 16 => buf[k.val]

/-- KSW(i) = MemRead(4i, 4), schedule word i (00_scope.md R10, 20_memory.md R52 b). -/
def ksw (m : Memory) (i : Nat) : Option Word := memRead m (4 * i) 4

/-- RK(r) = MemRead(16r, 16), round key r (42_key_expansion.md R126). -/
def roundKey (m : Memory) (r : Nat) : Option Block := memRead m (16 * r) 16

/-- The byte in row r, column c of the State matrix: byte r + 4c (00_scope.md R8). -/
def cell (b : Block) (r c : Fin 4) : Byte := b[r.val + 4 * c.val]

/-- The State matrix with the given byte in every row r, column c. -/
def ofCells (f : Fin 4 → Fin 4 → Byte) : Block :=
  Vector.ofFn fun k : Fin 16 => f ⟨k.val % 4, by omega⟩ ⟨k.val / 4, by omega⟩

end Sys2Proof.Machine
end

