-- ==== Sys2Proof/Machine/Flags.lean ====
section
/-! DEFINITION. The two flags of the core, BUSY and KEY_VALID. There are no condition codes: no micro-op and no function unit
produces one (10_state.md R26). -/

namespace Sys2Proof.Machine

/-- The flags at the ACCEPT of a valid command: BUSY <- 1, and KEY_VALID <- 0 when the command is KEYLOAD (44_engine.md R161,
10_state.md R26). -/
def acceptFlags (op : Byte) (s : State) : State :=
  { s with busy := true, keyValid := if op = 0x01 then false else s.keyValid }

/-- The flags at COMPLETE: BUSY <- 0, and KEY_VALID <- 1 when the command is KEYLOAD (44_engine.md R166). -/
def completeFlags (s : State) : State :=
  { s with busy := false, keyValid := if s.cmd = 0x01 then true else s.keyValid }

end Sys2Proof.Machine
end

