-- ==== Sys2Proof/Machine/Commands.lean ====
section
/-! DEFINITION. The three commands. The meaning of a command is its ACCEPT step (44_engine.md R161), which `step` takes when
BUSY = 0 and the frame is whole; the frame is already off the command stream. The micro-ops of the command and COMPLETE
follow as steps of their own (R165, R166). That this ACCEPT is what `exec` of a command does is DEDUCED (log entry 10). -/

namespace Sys2Proof.Machine

/-- The end of ACCEPT, for a valid command: latch the payload into IN and INLEN, CMD <- OP, NK <- LEN / 4 when it is KEYLOAD,
the flags, UPC <- 0 (44_engine.md R161). -/
def beginCommand (op len : Byte) (payload : List Byte) (s : State) : State :=
  acceptFlags op
    { s with
      inBuf := latch s.inBuf payload
      inLen := len.setWidth 6
      cmd := op
      nk := if op = 0x01 then nkOfLen len else s.nk
      upc := 0 }

/-- ACCEPT of ENCRYPT and DECRYPT: NoKey before the length check (44_engine.md R161, 60_exceptions.md R197). -/
def acceptBlock (op len : Byte) (payload : List Byte) (s : State) : Host.Outcome State Fault Refusal :=
  if frameWellFormed len payload then
    if s.keyValid = false then .next (raiseError .noKey s)
    else if blockLenLegal len then .next (beginCommand op len payload s)
    else .next (raiseError .invalidBlockLength s)
  else .refused .malformedFrame

/-- KEYLOAD (44_engine.md R167): a key of 16, 24 or 32 bytes begins the command, any other LEN is InvalidKeyLength. -/
def execKeyload (len : Byte) (payload : List Byte) (s : State) : Host.Outcome State Fault Refusal :=
  if frameWellFormed len payload then
    if keyLenLegal len then .next (beginCommand 0x01 len payload s)
    else .next (raiseError .invalidKeyLength s)
  else .refused .malformedFrame

/-- ENCRYPT (44_engine.md R168). -/
def execEncrypt (len : Byte) (payload : List Byte) (s : State) : Host.Outcome State Fault Refusal :=
  acceptBlock 0x02 len payload s

/-- DECRYPT (44_engine.md R169). -/
def execDecrypt (len : Byte) (payload : List Byte) (s : State) : Host.Outcome State Fault Refusal :=
  acceptBlock 0x03 len payload s

end Sys2Proof.Machine
end

