-- ==== Sys2Proof/Machine/Field.lean ====
section
/-! DEFINITION. GFU, the GF(2^8) arithmetic unit: XTIME and GMUL (40_gf_arithmetic.md). Addition in the field is XOR (R102). -/

namespace Sys2Proof.Machine

/-- XTIME, multiplication by x: shift the 9-bit intermediate left, return its low byte, XORed with 0x1B when bit 8 was 1
(40_gf_arithmetic.md R100; 90_conflicts.md C2). -/
def xtime (b : Byte) : Byte :=
  let t : BitVec 9 := b.setWidth 9 <<< 1
  if t.getLsbD 8 then t.setWidth 8 ^^^ 0x1B else t.setWidth 8

/-- `n` turns of the loop of GMUL: add `a` to `p` when bit 0 of `b` is 1, double `a`, shift `b` right (40_gf_arithmetic.md
R101). -/
def gmulLoop : Nat → Byte → Byte → Byte → Byte
  | 0, p, _, _ => p
  | n + 1, p, a, b => gmulLoop n (if b.getLsbD 0 then p ^^^ a else p) (xtime a) (b >>> 1)

/-- GMUL, multiplication in GF(2^8): eight turns from p = 0x00 (40_gf_arithmetic.md R101). -/
def gmul (a b : Byte) : Byte := gmulLoop 8 0 a b

end Sys2Proof.Machine
end

