-- ==== Sys2Proof/Machine/KeyExpansion.lean ====
section
/-! DEFINITION. KXU: the function units ROTWORD and SUBWORD and the micro-ops KXINIT and KXSTEP (42_key_expansion.md). -/

namespace Sys2Proof.Machine

/-- ROTWORD: the first byte moves to the last place (42_key_expansion.md R120). -/
def rotWord (w : Word) : Word := #v[w[1], w[2], w[3], w[0]]

/-- SUBWORD: each byte through the S-box (42_key_expansion.md R121). -/
def subWord (w : Word) : Word := Vector.ofFn fun k => sbox w[k]

/-- The value TMP takes in KXSTEP i, from schedule word i-1 (42_key_expansion.md R124): at i mod Nk = 0 rotate, substitute, then
add RCON[i/Nk] to the first byte; else, for Nk > 6 and i mod Nk = 4, substitute; else as read. -/
def kxTemp (nk i : Nat) (w : Word) : Option Word :=
  if i % nk = 0 then
    (rcon (i / nk)).map fun rc =>
      let t := subWord (rotWord w)
      #v[t[0] ^^^ rc, t[1], t[2], t[3]]
  else if nk > 6 ∧ i % nk = 4 then some (subWord w)
  else some w

/-- TMP and the new KS of KXSTEP i: word i takes word i-Nk XOR TMP (42_key_expansion.md R124). -/
def kxStepResult (nk i : Nat) (m : Memory) : Option (Word × Memory) := do
  let t ← kxTemp nk i (← ksw m (i - 1))
  let m' ← memWrite m (4 * i) (xorBytes (← ksw m (i - nk)) t)
  return (t, m')

/-- KXINIT i: KS bytes 4i..4i+3 take IN bytes 4i..4i+3 (42_key_expansion.md R123); refused where i is not below Nk
(30_encoding.md R81). -/
def execKxinit (i : BitVec 6) (s : State) : Host.Outcome State Fault Refusal :=
  if microOpLegal s.nk (.kxinit i) then
    match memWrite s.ks (4 * i.toNat) (inWord s.inBuf i.toNat) with
    | some m => .next (setKs s m)
    | none => .fault .addressOutOfRange
  else .refused (.reservedMicroOp (0xB#4 ++ i))

/-- KXSTEP i: derive schedule word i (42_key_expansion.md R124); refused where i is not in Nk..4(Nr+1)-1 (30_encoding.md
R81). -/
def execKxstep (i : BitVec 6) (s : State) : Host.Outcome State Fault Refusal :=
  if microOpLegal s.nk (.kxstep i) then
    match kxStepResult s.nk.toNat i.toNat s.ks with
    | some (t, m) => .next (setKs (setTmp s t) m)
    | none => .fault .addressOutOfRange
  else .refused (.reservedMicroOp (0xC#4 ++ i))

end Sys2Proof.Machine
end

