-- ==== Sys2Proof/Machine/RoundTransform.lean ====
section
/-! DEFINITION. RDP: the nine micro-ops of the round datapath (43_round_transform.md). In each, the new State is a function of
the whole old State (00_scope.md R10). -/

namespace Sys2Proof.Machine

/-- Every byte through SBOX (43_round_transform.md R140). -/
def subBytes (b : Block) : Block := Vector.ofFn fun k => sbox b[k]

/-- Every byte through INVSBOX (43_round_transform.md R141). -/
def invSubBytes (b : Block) : Block := Vector.ofFn fun k => invSbox b[k]

/-- Row r moves r columns to the left: row r, column c takes row r, column (c + r) mod 4 (43_round_transform.md R142). -/
def shiftRows (b : Block) : Block := ofCells fun r c => cell b r (c + r)

/-- Row r moves r columns to the right: row r, column c takes row r, column (c - r) mod 4 (43_round_transform.md R143). -/
def invShiftRows (b : Block) : Block := ofCells fun r c => cell b r (c - r)

/-- Each column times the matrix whose row 0 is `row` and whose other rows are the row above rotated one place to the right,
so that its entry in row r, column k is row[(k - r) mod 4] (43_round_transform.md R144, R145). -/
def mixWith (row : Word) (b : Block) : Block :=
  ofCells fun r c =>
    gmul (row[(0 - r : Fin 4)]) (cell b 0 c) ^^^ gmul (row[(1 - r : Fin 4)]) (cell b 1 c) ^^^
    gmul (row[(2 - r : Fin 4)]) (cell b 2 c) ^^^ gmul (row[(3 - r : Fin 4)]) (cell b 3 c)

/-- The forward matrix, row 0 (02, 03, 01, 01) (43_round_transform.md R144). -/
def mixColumns (b : Block) : Block := mixWith #v[0x02, 0x03, 0x01, 0x01] b

/-- The inverse matrix, row 0 (0e, 0b, 0d, 09) (43_round_transform.md R145). -/
def invMixColumns (b : Block) : Block := mixWith #v[0x0e, 0x0b, 0x0d, 0x09] b

/-- SUBBYTES (43_round_transform.md R140). -/
def execSubbytes (s : State) : Host.Outcome State Fault Refusal := .next (setSt s (subBytes s.st))

/-- INVSUBBYTES (43_round_transform.md R141). -/
def execInvsubbytes (s : State) : Host.Outcome State Fault Refusal := .next (setSt s (invSubBytes s.st))

/-- SHIFTROWS (43_round_transform.md R142). -/
def execShiftrows (s : State) : Host.Outcome State Fault Refusal := .next (setSt s (shiftRows s.st))

/-- INVSHIFTROWS (43_round_transform.md R143). -/
def execInvshiftrows (s : State) : Host.Outcome State Fault Refusal := .next (setSt s (invShiftRows s.st))

/-- MIXCOLUMNS (43_round_transform.md R144). -/
def execMixcolumns (s : State) : Host.Outcome State Fault Refusal := .next (setSt s (mixColumns s.st))

/-- INVMIXCOLUMNS (43_round_transform.md R145). -/
def execInvmixcolumns (s : State) : Host.Outcome State Fault Refusal := .next (setSt s (invMixColumns s.st))

/-- ADDROUNDKEY r: State byte j takes its XOR with byte j of round key r (43_round_transform.md R146); refused where r is
above Nr (30_encoding.md R81). -/
def execAddroundkey (r : BitVec 6) (s : State) : Host.Outcome State Fault Refusal :=
  if microOpLegal s.nk (.addroundkey r) then
    match roundKey s.ks r.toNat with
    | some k => .next (setSt s (xorBytes s.st k))
    | none => .fault .addressOutOfRange
  else .refused (.reservedMicroOp (0x1#4 ++ r))

/-- LOADSTATE: State byte k takes input byte k (43_round_transform.md R147). -/
def execLoadstate (s : State) : Host.Outcome State Fault Refusal := .next (setSt s (inBlock s.inBuf))

/-- STOREOUT: output byte k takes State byte k; ST keeps its value (43_round_transform.md R148). -/
def execStoreout (s : State) : Host.Outcome State Fault Refusal := .next (setOut s s.st)

end Sys2Proof.Machine
end

