-- ==== Sys2Proof/Machine/Dispatch.lean ====
section
/-! DEFINITION. One arm per instruction, each one call of its meaning. -/

namespace Sys2Proof.Machine

def exec (i : Instr) (s : State) : Host.Outcome State Fault Refusal :=
  match i with
  | .keyload len p => Sys2Proof.Machine.execKeyload len p s
  | .encrypt len p => Sys2Proof.Machine.execEncrypt len p s
  | .decrypt len p => Sys2Proof.Machine.execDecrypt len p s
  | .addroundkey r => Sys2Proof.Machine.execAddroundkey r s
  | .subbytes => Sys2Proof.Machine.execSubbytes s
  | .shiftrows => Sys2Proof.Machine.execShiftrows s
  | .mixcolumns => Sys2Proof.Machine.execMixcolumns s
  | .invsubbytes => Sys2Proof.Machine.execInvsubbytes s
  | .invshiftrows => Sys2Proof.Machine.execInvshiftrows s
  | .invmixcolumns => Sys2Proof.Machine.execInvmixcolumns s
  | .loadstate => Sys2Proof.Machine.execLoadstate s
  | .storeout => Sys2Proof.Machine.execStoreout s
  | .kxinit w => Sys2Proof.Machine.execKxinit w s
  | .kxstep w => Sys2Proof.Machine.execKxstep w s

end Sys2Proof.Machine
end

