-- ==== Sys2Proof/Machine/Orchestrator.lean ====
section
/-! DEFINITION. ORCH: the fixed micro-op lists Prog(CMD, NK) (42_key_expansion.md R125, 44_engine.md R163, R164), the pseudo-ops
they are made of (30_encoding.md R84), the COMPLETE step, and which step is enabled (R160). -/

namespace Sys2Proof.Machine

/-! ## The micro-op lists -/

/-- ROUND r (30_encoding.md R84). -/
def roundOps (r : Nat) : List Instr := [.subbytes, .shiftrows, .mixcolumns, .addroundkey (.ofNat 6 r)]

/-- FINALROUND r (30_encoding.md R84). -/
def finalRoundOps (r : Nat) : List Instr := [.subbytes, .shiftrows, .addroundkey (.ofNat 6 r)]

/-- INVROUND r (30_encoding.md R84). -/
def invRoundOps (r : Nat) : List Instr := [.invshiftrows, .invsubbytes, .addroundkey (.ofNat 6 r), .invmixcolumns]

/-- INVFINALROUND (30_encoding.md R84). -/
def invFinalRoundOps : List Instr := [.invshiftrows, .invsubbytes, .addroundkey 0]

/-- KEYEXPANSION Nk, which is Prog(KEYLOAD): KXINIT 0 to Nk-1, then KXSTEP Nk to 4(Nr+1)-1 (42_key_expansion.md R125). -/
def progKeyload (nk : Nat) : List Instr :=
  (List.range nk).map (fun i => .kxinit (.ofNat 6 i)) ++
    (List.range' nk (4 * (nk + 7) - nk)).map (fun i => .kxstep (.ofNat 6 i))

/-- CIPHER Nr, which is Prog(ENCRYPT) (44_engine.md R163). -/
def progEncrypt (nr : Nat) : List Instr :=
  [.loadstate, .addroundkey 0] ++ (List.range' 1 (nr - 1)).flatMap roundOps ++ finalRoundOps nr ++ [.storeout]

/-- INVCIPHER Nr, which is Prog(DECRYPT): the rounds Nr-1 down to 1 (44_engine.md R164). -/
def progDecrypt (nr : Nat) : List Instr :=
  [.loadstate, .addroundkey (.ofNat 6 nr)] ++ (List.range' 1 (nr - 1)).reverse.flatMap invRoundOps ++
    invFinalRoundOps ++ [.storeout]

/-- Prog(CMD, NK), for a command opcode and a key size (44_engine.md R160). -/
def prog (cmd : Byte) (nk : BitVec 4) : Option (List Instr) :=
  if nkLegal nk then
    if cmd = 0x01 then some (progKeyload nk.toNat)
    else if cmd = 0x02 then some (progEncrypt (nrOf nk))
    else if cmd = 0x03 then some (progDecrypt (nrOf nk))
    else none
  else none

/-! ## The enabled step (44_engine.md R160) -/

/-- COMPLETE: STATUS <- 0x00, the response (with OUT for a block command), the flags (44_engine.md R166). -/
def complete (s : State) : State :=
  completeFlags <|
    emit { s with status := 0x00 } (if s.cmd = 0x01 then ⟨0x00, 0, []⟩ else ⟨0x00, 16, s.out.toList⟩)

/-- What the machine does next. -/
inductive Action where
  /-- The reset event the host has asserted (70_reset_and_hazards.md R220). -/
  | reset
  /-- BUSY = 0 and no whole frame waits: the engine has no step. -/
  | idle
  /-- ACCEPT of a frame with a reserved opcode (30_encoding.md R77). -/
  | acceptReserved (rest : List Byte)
  /-- ACCEPT of a command; `rest` is the stream without its frame. -/
  | accept (i : Instr) (rest : List Byte)
  /-- EXEC of the micro-op that the word at UPC decodes to. -/
  | exec (i : Instr)
  /-- The word at UPC is reserved (30_encoding.md R81). -/
  | reservedWord (mw : BitVec 10)
  /-- COMPLETE. -/
  | complete
  /-- BUSY = 1 and no step is enabled. -/
  | stuck
  deriving DecidableEq, Repr

/-- With BUSY = 1: EXEC when UPC is below the length of Prog, COMPLETE when it equals it. ORCH issues the micro-op as its
10-bit word, which is decoded under NK (30_encoding.md R70 b, R85; DEDUCED, log entry 14). -/
def busyAction (s : State) : Action :=
  match prog s.cmd s.nk with
  | none => .stuck
  | some p =>
    match p[s.upc.toNat]? with
    | some i =>
      match encode i with
      | .microOp mw =>
        match decodeMicroOp s.nk mw with
        | .ok j => .exec j
        | .error _ => .reservedWord mw
      | .frame _ => .stuck
    | none => if s.upc.toNat = p.length then .complete else .stuck

/-- With BUSY = 0: ACCEPT when a whole frame waits at the port. -/
def idleAction (s : State) : Action :=
  match decodeFrame s.cmdPort with
  | .incomplete => .idle
  | .reservedOpcode _ _ rest => .acceptReserved rest
  | .command i rest => .accept i rest

/-- The one thing that happens next (44_engine.md R160; a reset that the host has asserted comes first, DESIGN CHOICE, log
entry 6). -/
def nextAction (s : State) : Action :=
  if s.resetReq then .reset else if s.busy then busyAction s else idleAction s

/-- The end of an EXEC step: after the micro-op's own effect, UPC <- UPC + 1 (44_engine.md R165). -/
def finishExec : Host.Outcome State Fault Refusal → Host.Outcome State Fault Refusal
  | .next s => .next (advanceUpc s)
  | .fault f => .fault f
  | .refused r => .refused r

/-! ## Placing an instruction where the next step fetches it (log entry 9) -/

/-- Where ORCH issues a micro-op: CMD, NK and UPC of its first occurrence in Prog, under the current NK if it is there, else
under 4, 6, 8. -/
def placeOf (nk : BitVec 4) (i : Instr) : Option (Byte × BitVec 4 × BitVec 6) :=
  [nk, 4, 6, 8].findSome? fun n =>
    [0x02, 0x03, 0x01].findSome? fun c =>
      (prog c n).bind fun p => (p.findIdx? (· == i)).map fun u => (c, n, BitVec.ofNat 6 u)

/-- The engine about to issue a micro-op: BUSY = 1 with CMD, NK and UPC at a place of it; unchanged if there is none. -/
def placeMicroOp (i : Instr) (s : State) : State :=
  match placeOf s.nk i with
  | some (c, n, u) => { s with busy := true, cmd := c, nk := n, upc := u, resetReq := false }
  | none => s

/-- The engine about to accept a frame: BUSY = 0 and the frame first at the command port. -/
def placeFrame (bytes : List Byte) (s : State) : State :=
  { s with busy := false, cmdPort := bytes ++ s.cmdPort, resetReq := false }

end Sys2Proof.Machine
end

