-- ==== Sys2Proof/Machine/Step.lean ====
section
/-! DEFINITION. One step of the machine: the engine step that is enabled (44_engine.md R160), or the reset event
(70_reset_and_hazards.md R220). -/

namespace Sys2Proof.Machine

/-- One step. ACCEPT takes the frame off the stream and runs the command's meaning on what is left (44_engine.md R161); a
reserved opcode raises IllegalCommand (60_exceptions.md R195); EXEC runs the micro-op's meaning and then advances UPC (R165).
An idle engine keeps its state (DESIGN CHOICE, log entry 4). -/
def step (s : State) : Host.Outcome State Fault Refusal :=
  match nextAction s with
  | .reset => .next (takeReset s)
  | .idle => .next s
  | .acceptReserved rest => .next (raiseError .illegalCommand (setCmdPort s rest))
  | .accept i rest => exec i (setCmdPort s rest)
  | .exec i => finishExec (exec i s)
  | .reservedWord mw => .refused (.reservedMicroOp mw)
  | .complete => .next (complete s)
  | .stuck => .fault .engineStuck

/-- The state with a table row's instruction where the next step takes it: a micro-op at a place of Prog where ORCH issues
it, a command frame first at the command port of an engine that is not busy (log entry 9). -/
def State.withFetchWord (s : State) (nbits w : Nat) : State :=
  match tableMicroOp nbits w with
  | some i => placeMicroOp i s
  | none => if nbits < 16 then s else placeFrame (tableFrame nbits w) s

end Sys2Proof.Machine
end

