-- ==== Sys2Proof/Safety.lean ====
section
/-! DEFINITION. The terms the claims use: an idle engine, the response frames the core can emit, the invariants of the state, and
the cipher as a function of the key schedule and a block, written from the round sequences of 44_engine.md (R163, R164) as
equations on blocks. -/

namespace Sys2Proof.Machine

/-- The engine is idle: BUSY = 0 and no reset is asserted, so the only step it can take is an ACCEPT (44_engine.md R160). -/
def Idle (s : State) : Prop := s.busy = false ∧ s.resetReq = false

/-- `n` steps of the machine, one after another, with no move of the host between them; the run stops where a step does. -/
def run (n : Nat) (s : State) : Host.Outcome State Fault Refusal := Host.Core.run core n s

/-- A frame on the command port: OP, LEN, then the payload (30_encoding.md R71, R72). -/
def commandFrame (op : Byte) (payload : List Byte) : List Byte := op :: BitVec.ofNat 8 payload.length :: payload

/-- The state an error leaves: STATUS and one more response, (code, RLEN 0) (60_exceptions.md R198). -/
def errorState (code : Byte) (s : State) : State :=
  { s with status := code, responses := s.responses ++ [⟨code, 0, []⟩] }

/-! ## Invariants -/

/-- A response the core can emit: OK with 0 or 16 bytes, or one of the four errors it raises with none (30_encoding.md R75, R76,
60_exceptions.md R193). -/
def Emittable (r : Response) : Prop :=
  (r.rs = 0x00 ∧ (r.rlen = 0 ∧ r.payload = [] ∨ r.rlen = 16 ∧ r.payload.length = 16)) ∨
  ((r.rs = 0x01 ∨ r.rs = 0x02 ∨ r.rs = 0x04 ∨ r.rs = 0x05) ∧ r.rlen = 0 ∧ r.payload = [])

/-- A command in progress is one of the three, for a legal NK, with UPC within its Prog. During a KEYLOAD no key is valid and
INLEN is the key's length; during a block command a key is valid and INLEN is 16 (44_engine.md R160, R161). -/
def InProgress (s : State) : Prop :=
  (∃ p, prog s.cmd s.nk = some p ∧ s.upc.toNat ≤ p.length) ∧
  (s.cmd = 0x01 → s.keyValid = false ∧ s.inLen.toNat = 4 * s.nk.toNat) ∧
  (s.cmd ≠ 0x01 → s.keyValid = true ∧ s.inLen.toNat = 16)

/-- The ranges 10_state.md R20 gives the registers, the canonical form of KS, and what BUSY and KEY_VALID promise. -/
structure CoreInv (s : State) : Prop where
  ksWf : Memory.wf s.ks = true
  nkRange : s.nk = 0 ∨ nkLegal s.nk = true
  inLenRange : s.inLen.toNat ≤ 32
  upcRange : s.upc.toNat ≤ 60
  statusRange : s.status = 0x00 ∨ s.status = 0x01 ∨ s.status = 0x02 ∨ s.status = 0x04 ∨ s.status = 0x05
  keyValidNk : s.keyValid = true → nkLegal s.nk = true
  inProgress : s.busy = true → InProgress s
  emitted : ∀ r ∈ s.responses, Emittable r

/-- Schedule word i of a key of nk words is word i-nk XOR the value that KXSTEP i computes from word i-1 (42_key_expansion.md
R124). -/
def ScheduleWord (m : Memory) (nk i : Nat) : Prop :=
  ∃ prev old t, ksw m (i - 1) = some prev ∧ ksw m (i - nk) = some old ∧ kxTemp nk i prev = some t ∧
    ksw m i = some (xorBytes old t)

/-- KEY_VALID = 1 only with a complete schedule in KS; during a KEYLOAD the words below UPC are those of the key in IN
(10_state.md R26, 20_memory.md R56, 44_engine.md R161). -/
structure ScheduleInv (s : State) : Prop where
  complete : s.keyValid = true → ∀ i, s.nk.toNat ≤ i → i < nWords s.nk → ScheduleWord s.ks s.nk.toNat i
  keyWords : s.busy = true → s.cmd = 0x01 → ∀ i, i < s.nk.toNat → i < s.upc.toNat →
    ksw s.ks i = some (inWord s.inBuf i)
  derived : s.busy = true → s.cmd = 0x01 → ∀ i, s.nk.toNat ≤ i → i < s.upc.toNat →
    ScheduleWord s.ks s.nk.toNat i

/-! ## The cipher (44_engine.md R163, R164) -/

/-- Round key r: KS bytes 16r to 16r + 15 (42_key_expansion.md R126). -/
def keyOf (m : Memory) (r : Nat) : Block := Vector.ofFn fun j : Fin 16 => readByte m (16 * r + j)

/-- Rounds 1 to n of encryption: SubBytes, ShiftRows, MixColumns, AddRoundKey(r) (R163). -/
def encryptRounds (m : Memory) : Nat → Block → Block
  | 0, b => b
  | n + 1, b => xorBytes (mixColumns (shiftRows (subBytes (encryptRounds m n b)))) (keyOf m (n + 1))

/-- Encryption of a block for Nr rounds: AddRoundKey(0), rounds 1 to Nr-1, and a final round without MixColumns (R163). -/
def cipher (m : Memory) (nr : Nat) (b : Block) : Block :=
  xorBytes (shiftRows (subBytes (encryptRounds m (nr - 1) (xorBytes b (keyOf m 0))))) (keyOf m nr)

/-- Rounds n down to 1 of decryption: InvShiftRows, InvSubBytes, AddRoundKey(r), InvMixColumns (R164). -/
def decryptRounds (m : Memory) : Nat → Block → Block
  | 0, b => b
  | n + 1, b =>
    decryptRounds m n (invMixColumns (xorBytes (invSubBytes (invShiftRows b)) (keyOf m (n + 1))))

/-- Decryption of a block for Nr rounds: AddRoundKey(Nr), rounds Nr-1 down to 1, and a final round without InvMixColumns
(R164). -/
def invCipher (m : Memory) (nr : Nat) (b : Block) : Block :=
  xorBytes (invSubBytes (invShiftRows (decryptRounds m (nr - 1) (xorBytes b (keyOf m nr))))) (keyOf m 0)

end Sys2Proof.Machine
end

