-- ==== Sys2Proof/Certificates/Slice0/Obligations.lean ====
section
/-! DEFINITION. The statements for the provers, from the numbered rules of spec/. -/

open Sys2Proof Sys2Proof.Machine

/-! ## Function units (40_gf_arithmetic.md, 41_tables.md, 42_key_expansion.md) -/

/-- R100: XTIME shifts left by one bit and XORs 0x1B when the discarded bit was 1; its corner cases; it is a bijection. -/
def Obligations.XtimeDoublesAByte : Prop :=
  (∀ b : Byte, xtime b = (b <<< 1) ^^^ (if b.getLsbD 7 = true then 0x1B#8 else 0x00#8)) ∧
  xtime 0x00 = 0x00 ∧ xtime 0x80 = 0x1b ∧ xtime 0x7f = 0xfe ∧ xtime 0xff = 0xe5 ∧ xtime 0x8d = 0x01 ∧
  xtime 0x57 = 0xae ∧ xtime 0xae = 0x47 ∧
  Function.Bijective xtime

/-- R101: GMUL(a, b) is the XOR, over every i in 0..7 with b[i] = 1, of XTIME applied i times to a; its corner cases. -/
def Obligations.GmulSumsTheDoublings : Prop :=
  (∀ a b : Byte, gmul a b =
    (List.range 8).foldl (fun p i => if b.getLsbD i = true then p ^^^ xtime^[i] a else p) 0x00) ∧
  (∀ a : Byte, gmul 0x00 a = 0x00 ∧ gmul a 0x00 = 0x00 ∧ gmul 0x01 a = a ∧ gmul a 0x01 = a) ∧
  gmul 0x80 0x80 = 0x9a ∧ gmul 0xff 0xff = 0x13 ∧ gmul 0x57 0x13 = 0xfe ∧ gmul 0x57 0x83 = 0xc1

/-- R102: the laws of the field GF(2^8), with XOR as addition and GMUL as multiplication. -/
def Obligations.GmulIsFieldMultiplication : Prop :=
  (∀ a b : Byte, gmul a b = gmul b a) ∧
  (∀ a b c : Byte, gmul a (gmul b c) = gmul (gmul a b) c) ∧
  (∀ a b c : Byte, gmul a (b ^^^ c) = gmul a b ^^^ gmul a c) ∧
  (∀ a : Byte, gmul a 0x01 = a ∧ gmul a 0x00 = 0x00 ∧ gmul a 0x02 = xtime a ∧ a ^^^ a = 0x00) ∧
  (∀ a : Byte, a ≠ 0x00 → ∃! b : Byte, gmul a b = 0x01)

/-- R111: GINV(x) is the one byte y with GMUL(x, y) = 0x01 for x ≠ 0x00, GINV(0x00) = 0x00, and GINV is its own inverse. -/
def Obligations.GinvIsTheInverse : Prop :=
  (∀ x y : Byte, x ≠ 0x00 → (gmul x y = 0x01 ↔ y = ginv x)) ∧ ginv 0x00 = 0x00 ∧ ∀ x : Byte, ginv (ginv x) = x

/-- R112: AFFINE, bit by bit, with c = 0x63. -/
def Obligations.AffineIsTheBitEquation : Prop :=
  ∀ (y : Byte) (i : Nat), i < 8 →
    (affine y).getLsbD i =
      (y.getLsbD i ^^ y.getLsbD ((i + 4) % 8) ^^ y.getLsbD ((i + 5) % 8) ^^ y.getLsbD ((i + 6) % 8) ^^
        y.getLsbD ((i + 7) % 8) ^^ (0x63#8).getLsbD i)

/-- R110: every entry of SBOX is AFFINE(GINV(x)), and SBOX is a permutation of the bytes. -/
def Obligations.SboxIsAffineOfInverse : Prop :=
  (∀ x : Byte, sbox x = affine (ginv x)) ∧ Function.Bijective sbox ∧
  sbox 0x00 = 0x63 ∧ sbox 0x01 = 0x7c ∧ sbox 0x53 = 0xed ∧ sbox 0xff = 0x16

/-- R113: INVSBOX is the point-wise inverse of SBOX, in both orders. -/
def Obligations.InvSboxUndoesSbox : Prop :=
  (∀ x : Byte, invSbox (sbox x) = x) ∧ (∀ y : Byte, sbox (invSbox y) = y) ∧
  invSbox 0x63 = 0x00 ∧ invSbox 0x00 = 0x52 ∧ invSbox 0xed = 0x53

/-- R114: RCON[1] = 0x01, each next entry is XTIME of the one before, so the ten entries of the rule's table; there is no
entry 0 and none above 10. -/
def Obligations.RconIsRepeatedXtime : Prop :=
  (List.range' 1 10).map rcon =
    [some 0x01, some 0x02, some 0x04, some 0x08, some 0x10, some 0x20, some 0x40, some 0x80, some 0x1b, some 0x36] ∧
  rcon 1 = some 0x01 ∧ (∀ j, 2 ≤ j → j ≤ 10 → rcon j = (rcon (j - 1)).map xtime) ∧
  ∀ j, (rcon j).isSome = true ↔ 1 ≤ j ∧ j ≤ 10

/-- R120, R121: ROTWORD moves the first byte to the last place and every other byte one place earlier, so a word of four equal
bytes is unchanged; SUBWORD substitutes each byte. -/
def Obligations.RotwordAndSubwordOnBytes : Prop :=
  (∀ (w : Word) (k : Nat) (hk : k < 4),
    (rotWord w)[k] = w[(k + 1) % 4] ∧ (subWord w)[k] = sbox w[k]) ∧
  (∀ (w : Word), (∀ k (_ : k < 4), w[k] = w[0]) → rotWord w = w) ∧
  rotWord #v[0x0c, 0x0d, 0x0e, 0x0f] = #v[0x0d, 0x0e, 0x0f, 0x0c] ∧
  subWord #v[0x00, 0x00, 0x00, 0x00] = #v[0x63, 0x63, 0x63, 0x63] ∧
  subWord #v[0x0d, 0x0e, 0x0f, 0x0c] = #v[0xd7, 0xab, 0x76, 0xfe]

/-! ## The key-schedule store (20_memory.md) -/

/-- R51: MemRead gives the bytes at a .. a+n-1; MemWrite sets those bytes and changes no other; a read gives the latest
write. In a canonical KS, which stays canonical. -/
def Obligations.MemWriteThenMemRead : Prop :=
  ∀ (n a : Nat) (m : Memory) (v : Vector Byte n), Memory.wf m = true → a + n ≤ 240 →
    memRead m a n = some (Vector.ofFn fun k : Fin n => readByte m (a + k)) ∧
    ∃ m', memWrite m a v = some m' ∧ Memory.wf m' = true ∧ memRead m' a n = some v ∧
      ∀ x, x < a ∨ a + n ≤ x → readByte m' x = readByte m x

/-- R52 c, R126: round key r is schedule words 4r to 4r+3, one after the other. -/
def Obligations.RoundKeyIsFourWords : Prop :=
  ∀ (m : Memory) (r : Nat), r ≤ 14 →
    ∃ k, roundKey m r = some k ∧
      ∀ c (_ : c < 4), ∃ w, ksw m (4 * r + c) = some w ∧ ∀ q (_ : q < 4), k[4 * c + q] = w[q]

/-! ## Decoding and encoding (30_encoding.md) -/

/-- Hand-written words of R73 and R80 decode to the operations they stand for. -/
def Obligations.HandWordsDecode : Prop :=
  decodeFrame [0x01, 0x00, 0xaa] = .command (.keyload 0x00 []) [0xaa] ∧
  decodeFrame [0x02, 0x01, 0xaa] = .command (.encrypt 0x01 [0xaa]) [] ∧
  decodeFrame [0x03, 0x02, 0xaa, 0xbb, 0x05] = .command (.decrypt 0x02 [0xaa, 0xbb]) [0x05] ∧
  decodeFrame [0x07, 0x01, 0xaa, 0x01] = .reservedOpcode 0x07 0x01 [0x01] ∧
  decodeMicroOp 4 0b0001001010#10 = .ok (.addroundkey 10) ∧
  decodeMicroOp 4 0b0010000000#10 = .ok .subbytes ∧
  decodeMicroOp 4 0b0110000000#10 = .ok .invsubbytes ∧
  decodeMicroOp 4 0b1011000011#10 = .ok (.kxinit 3) ∧
  decodeMicroOp 8 0b1100111011#10 = .ok (.kxstep 59) ∧
  decodeMicroOp 4 0b1100111011#10 = .error (.reservedMicroOp 0b1100111011#10) ∧
  decodeMicroOp 4 0b0101000000#10 = .error (.reservedMicroOp 0b0101000000#10)

/-- Decode and encode agree, for every well-formed instruction and every operand value. A command's frame decodes to it in
front of any further bytes; a micro-op's word decodes to it under every NK that allows its ARG, and some key size does. -/
def Obligations.DecodeOfEncodeIsIdentity : Prop :=
  ∀ i : Instr, i.wellFormed = true →
    (∃ bytes, encode i = .frame bytes ∧ ∀ rest, decodeFrame (bytes ++ rest) = .command i rest) ∨
    (∃ mw, encode i = .microOp mw ∧ decodeMicroOpAnyKey mw = some i ∧
      (∀ nk, microOpLegal nk i = true → decodeMicroOp nk mw = .ok i) ∧
      ∃ nk, nkLegal nk = true ∧ microOpLegal nk i = true)

/-- What the decoders give is well formed and encodes back to what was decoded: no two encodings decode alike. -/
def Obligations.EncodeOfDecodeIsIdentity : Prop :=
  (∀ (nk : BitVec 4) (mw : BitVec 10) (i : Instr), nkLegal nk = true → decodeMicroOp nk mw = .ok i →
    encode i = .microOp mw ∧ i.wellFormed = true ∧ microOpLegal nk i = true) ∧
  (∀ (bytes rest : List Byte) (i : Instr), decodeFrame bytes = .command i rest →
    ∃ fr, encode i = .frame fr ∧ bytes = fr ++ rest ∧ i.wellFormed = true)

/-- R81: under a key size, exactly these words are reserved: UOP 0x0, 0x5, 0xD, 0xE, 0xF; UOP 0x2..0x4 and 0x6..0xA with
ARG ≠ 0; ADDROUNDKEY with ARG > Nr; KXINIT with ARG ≥ Nk; KXSTEP with ARG < Nk or ARG ≥ 4(Nr+1). A reserved word is
refused. ORCH never issues one: the word of every micro-op of a Prog decodes to it under NK. -/
def Obligations.ReservedMicroOpWordsRefused : Prop :=
  (∀ (cmd : Byte) (nk : BitVec 4) (p : List Instr) (i : Instr), prog cmd nk = some p → i ∈ p →
    ∃ mw, encode i = .microOp mw ∧ decodeMicroOp nk mw = .ok i) ∧
  ∀ (nk : BitVec 4) (uop : BitVec 4) (arg : BitVec 6), nkLegal nk = true →
    ((uop = 0x0 ∨ uop = 0x5 ∨ uop = 0xD ∨ uop = 0xE ∨ uop = 0xF ∨
      ((0x2 ≤ uop.toNat ∧ uop.toNat ≤ 0x4 ∨ 0x6 ≤ uop.toNat ∧ uop.toNat ≤ 0xA) ∧ arg ≠ 0) ∨
      (uop = 0x1 ∧ nk.toNat + 6 < arg.toNat) ∨
      (uop = 0xB ∧ nk.toNat ≤ arg.toNat) ∨
      (uop = 0xC ∧ (arg.toNat < nk.toNat ∨ 4 * (nk.toNat + 6 + 1) ≤ arg.toNat))) ↔
    decodeMicroOp nk (uop ++ arg) = .error (.reservedMicroOp (uop ++ arg)))

/-! ## Round datapath (43_round_transform.md) -/

/-- R140: SUBBYTES substitutes every byte of ST through SBOX and changes nothing else. -/
def Obligations.SubbytesSubstitutesEveryByte : Prop :=
  encode .subbytes = .microOp 0x080 ∧
  sbox 0x00 = 0x63 ∧
  ∀ s : State, ∃ t, exec .subbytes s = .next t ∧ t = { s with st := t.st } ∧
    ∀ k (_ : k < 16), t.st[k] = sbox s.st[k]

/-- R141: INVSUBBYTES substitutes every byte of ST through INVSBOX, which undoes SBOX, and changes nothing else. -/
def Obligations.InvsubbytesSubstitutesEveryByte : Prop :=
  encode .invsubbytes = .microOp 0x180 ∧
  invSbox 0x63 = 0x00 ∧ invSbox 0x00 = 0x52 ∧ (∀ x : Byte, invSbox (sbox x) = x ∧ sbox (invSbox x) = x) ∧
  ∀ s : State, ∃ t, exec .invsubbytes s = .next t ∧ t = { s with st := t.st } ∧
    ∀ k (_ : k < 16), t.st[k] = invSbox s.st[k]

/-- R142: SHIFTROWS rotates row r left by r, as cells and as the byte permutation 5k mod 16; a State of four equal columns is
unchanged; the bytes are only moved; nothing else changes. -/
def Obligations.ShiftrowsRotatesRowsLeft : Prop :=
  encode .shiftrows = .microOp 0x0C0 ∧
  ∀ s : State, ∃ t, exec .shiftrows s = .next t ∧ t = { s with st := t.st } ∧
    (∀ r c (_ : r < 4) (_ : c < 4), t.st[r + 4 * c] = s.st[r + 4 * ((c + r) % 4)]) ∧
    (∀ k (_ : k < 16), t.st[k] = s.st[(5 * k) % 16]) ∧
    ((∀ r c (_ : r < 4) (_ : c < 4), s.st[r + 4 * c] = s.st[r]) → t.st = s.st) ∧
    t.st.toList.Perm s.st.toList

/-- R143: INVSHIFTROWS rotates row r right by r, as cells and as the byte permutation 13k mod 16, the inverse of SHIFTROWS's;
corner cases as for SHIFTROWS; nothing else changes. -/
def Obligations.InvshiftrowsRotatesRowsRight : Prop :=
  encode .invshiftrows = .microOp 0x1C0 ∧
  (∀ k, k < 16 → (13 * ((5 * k) % 16)) % 16 = k) ∧
  ∀ s : State, ∃ t, exec .invshiftrows s = .next t ∧ t = { s with st := t.st } ∧
    (∀ r c (_ : r < 4) (_ : c < 4), t.st[r + 4 * c] = s.st[r + 4 * ((c + 4 - r) % 4)]) ∧
    (∀ k (_ : k < 16), t.st[k] = s.st[(13 * k) % 16]) ∧
    ((∀ r c (_ : r < 4) (_ : c < 4), s.st[r + 4 * c] = s.st[r]) → t.st = s.st) ∧
    t.st.toList.Perm s.st.toList

/-- R144: MIXCOLUMNS multiplies each column by the forward matrix, whose entry in row r, column k is (02,03,01,01)[(k-r) mod 4];
the same written out with XTIME; columns of equal bytes are unchanged; it is linear; nothing else changes. -/
def Obligations.MixcolumnsMultipliesByForwardMatrix : Prop :=
  let row : Word := #v[0x02, 0x03, 0x01, 0x01]
  let m : Vector Word 4 := #v[#v[0x02, 0x03, 0x01, 0x01], #v[0x01, 0x02, 0x03, 0x01], #v[0x01, 0x01, 0x02, 0x03],
    #v[0x03, 0x01, 0x01, 0x02]]
  encode .mixcolumns = .microOp 0x100 ∧
  (∀ r k (_ : r < 4) (_ : k < 4), m[r][k] = row[(k + 4 - r) % 4]) ∧
  (∀ a b : Block, mixColumns (xorBytes a b) = xorBytes (mixColumns a) (mixColumns b)) ∧
  ∀ s : State, ∃ t, exec .mixcolumns s = .next t ∧ t = { s with st := t.st } ∧
    (∀ r c (_ : r < 4) (_ : c < 4), t.st[r + 4 * c] =
      gmul m[r][0] s.st[4 * c] ^^^ gmul m[r][1] s.st[4 * c + 1] ^^^ gmul m[r][2] s.st[4 * c + 2] ^^^
        gmul m[r][3] s.st[4 * c + 3]) ∧
    (∀ c (_ : c < 4),
      let a0 := s.st[4 * c]; let a1 := s.st[4 * c + 1]; let a2 := s.st[4 * c + 2]; let a3 := s.st[4 * c + 3]
      t.st[4 * c] = xtime a0 ^^^ (xtime a1 ^^^ a1) ^^^ a2 ^^^ a3 ∧
      t.st[4 * c + 1] = a0 ^^^ xtime a1 ^^^ (xtime a2 ^^^ a2) ^^^ a3 ∧
      t.st[4 * c + 2] = a0 ^^^ a1 ^^^ xtime a2 ^^^ (xtime a3 ^^^ a3) ∧
      t.st[4 * c + 3] = (xtime a0 ^^^ a0) ^^^ a1 ^^^ a2 ^^^ xtime a3) ∧
    (∀ c (_ : c < 4), (∀ q (_ : q < 4), s.st[4 * c + q] = s.st[4 * c]) →
      ∀ q (_ : q < 4), t.st[4 * c + q] = s.st[4 * c + q])

/-- R145: INVMIXCOLUMNS multiplies each column by the inverse matrix, whose entry in row r, column k is
(0e,0b,0d,09)[(k-r) mod 4]; it undoes MIXCOLUMNS and is undone by it; columns of equal bytes are unchanged; it is linear;
nothing else changes. -/
def Obligations.InvmixcolumnsMultipliesByInverseMatrix : Prop :=
  let row : Word := #v[0x0e, 0x0b, 0x0d, 0x09]
  let m : Vector Word 4 := #v[#v[0x0e, 0x0b, 0x0d, 0x09], #v[0x09, 0x0e, 0x0b, 0x0d], #v[0x0d, 0x09, 0x0e, 0x0b],
    #v[0x0b, 0x0d, 0x09, 0x0e]]
  encode .invmixcolumns = .microOp 0x200 ∧
  (∀ r k (_ : r < 4) (_ : k < 4), m[r][k] = row[(k + 4 - r) % 4]) ∧
  (∀ a b : Block, invMixColumns (xorBytes a b) = xorBytes (invMixColumns a) (invMixColumns b)) ∧
  (∀ b : Block, invMixColumns (mixColumns b) = b ∧ mixColumns (invMixColumns b) = b) ∧
  ∀ s : State, ∃ t, exec .invmixcolumns s = .next t ∧ t = { s with st := t.st } ∧
    (∀ r c (_ : r < 4) (_ : c < 4), t.st[r + 4 * c] =
      gmul m[r][0] s.st[4 * c] ^^^ gmul m[r][1] s.st[4 * c + 1] ^^^ gmul m[r][2] s.st[4 * c + 2] ^^^
        gmul m[r][3] s.st[4 * c + 3]) ∧
    (∀ c (_ : c < 4), (∀ q (_ : q < 4), s.st[4 * c + q] = s.st[4 * c]) →
      ∀ q (_ : q < 4), t.st[4 * c + q] = s.st[4 * c + q])

/-- R146: ADDROUNDKEY r, for r up to Nr (and so at most 14), XORs byte j of round key r into State byte j, and changes nothing
else, so KS keeps every byte; done twice it restores the state; a zero round key leaves ST unchanged. -/
def Obligations.AddroundkeyXorsRoundKey : Prop :=
  ∀ (s : State) (r : BitVec 6), r.toNat ≤ s.nk.toNat + 6 → r.toNat ≤ 14 →
    encode (.addroundkey r) = .microOp (0x040 + r.setWidth 10) ∧
    ∃ t, exec (.addroundkey r) s = .next t ∧ t = { s with st := t.st } ∧
      (∀ j (_ : j < 16), t.st[j] = s.st[j] ^^^ readByte s.ks (16 * r.toNat + j)) ∧
      exec (.addroundkey r) t = .next s ∧
      ((∀ j, j < 16 → readByte s.ks (16 * r.toNat + j) = 0x00) → t.st = s.st)

/-- R147: LOADSTATE copies IN[0..15] to ST, byte k to byte k, and changes nothing else. -/
def Obligations.LoadstateCopiesInputBlock : Prop :=
  encode .loadstate = .microOp 0x240 ∧
  ∀ s : State, ∃ t, exec .loadstate s = .next t ∧ t = { s with st := t.st } ∧
    ∀ k (_ : k < 16), t.st[k] = s.inBuf[k]

/-- R148: STOREOUT copies ST to OUT, byte k to byte k, and changes nothing else, ST included. -/
def Obligations.StoreoutCopiesState : Prop :=
  encode .storeout = .microOp 0x280 ∧
  ∀ s : State, ∃ t, exec .storeout s = .next t ∧ t = { s with out := t.out } ∧
    ∀ k (_ : k < 16), t.out[k] = s.st[k]

/-- R149: the round micro-ops undo each other, from every state and for every legal r; SUBBYTES commutes with SHIFTROWS and
INVSUBBYTES with INVSHIFTROWS; INVMIXCOLUMNS after ADDROUNDKEY r is XOR with INVMIXCOLUMNS of the round key after
INVMIXCOLUMNS. -/
def Obligations.RoundOperationsInvert : Prop :=
  let undoes (i j : Instr) : Prop := ∀ s, ∃ t, exec i s = .next t ∧ exec j t = .next s
  let commute (i j : Instr) : Prop := ∀ s, ∃ t u v, exec i s = .next t ∧ exec j t = .next v ∧
    exec j s = .next u ∧ exec i u = .next v
  undoes .subbytes .invsubbytes ∧ undoes .invsubbytes .subbytes ∧
  undoes .shiftrows .invshiftrows ∧ undoes .invshiftrows .shiftrows ∧
  undoes .mixcolumns .invmixcolumns ∧ undoes .invmixcolumns .mixcolumns ∧
  (∀ (r : BitVec 6) (s : State), microOpLegal s.nk (.addroundkey r) = true →
    ∃ t, exec (.addroundkey r) s = .next t ∧ exec (.addroundkey r) t = .next s) ∧
  commute .subbytes .shiftrows ∧ commute .invsubbytes .invshiftrows ∧
  (∀ (r : BitVec 6) (s : State), microOpLegal s.nk (.addroundkey r) = true →
    ∃ t u v k, exec (.addroundkey r) s = .next t ∧ exec .invmixcolumns t = .next v ∧
      exec .invmixcolumns s = .next u ∧ roundKey s.ks r.toNat = some k ∧ v.st = xorBytes u.st (invMixColumns k))

/-- R150: lanes. In the micro-ops on 16 byte lanes, byte k of the result depends on byte k alone; MIXCOLUMNS and INVMIXCOLUMNS
on 4 column lanes; SHIFTROWS and INVSHIFTROWS on 4 row lanes. Everything outside the compared lane may differ. -/
def Obligations.RoundOperationsActOnLanes : Prop :=
  (∀ (s s' t t' : State) (k : Nat) (_ : k < 16),
    ((s.st[k] = s'.st[k] ∧
        (exec .subbytes s = .next t ∧ exec .subbytes s' = .next t' ∨
          exec .invsubbytes s = .next t ∧ exec .invsubbytes s' = .next t')) ∨
      (s.inBuf[k] = s'.inBuf[k] ∧ exec .loadstate s = .next t ∧ exec .loadstate s' = .next t')) →
    t.st[k] = t'.st[k]) ∧
  (∀ (s s' t t' : State) (k : Nat) (_ : k < 16), s.st[k] = s'.st[k] →
    exec .storeout s = .next t → exec .storeout s' = .next t' → t.out[k] = t'.out[k]) ∧
  (∀ (r : BitVec 6) (s s' t t' : State) (k : Nat) (_ : k < 16), s.st[k] = s'.st[k] →
    readByte s.ks (16 * r.toNat + k) = readByte s'.ks (16 * r.toNat + k) →
    exec (.addroundkey r) s = .next t → exec (.addroundkey r) s' = .next t' → t.st[k] = t'.st[k]) ∧
  (∀ (s s' t t' : State) (c : Nat) (_ : c < 4), (∀ q (_ : q < 4), s.st[4 * c + q] = s'.st[4 * c + q]) →
    (exec .mixcolumns s = .next t ∧ exec .mixcolumns s' = .next t' ∨
      exec .invmixcolumns s = .next t ∧ exec .invmixcolumns s' = .next t') →
    ∀ q (_ : q < 4), t.st[4 * c + q] = t'.st[4 * c + q]) ∧
  (∀ (s s' t t' : State) (r : Nat) (_ : r < 4), (∀ q (_ : q < 4), s.st[r + 4 * q] = s'.st[r + 4 * q]) →
    (exec .shiftrows s = .next t ∧ exec .shiftrows s' = .next t' ∨
      exec .invshiftrows s = .next t ∧ exec .invshiftrows s' = .next t') →
    ∀ q (_ : q < 4), t.st[r + 4 * q] = t'.st[r + 4 * q])

/-! ## Key expansion (42_key_expansion.md) -/

/-- R123: KXINIT i, for i below Nk (at most 8 words), copies IN bytes 4i..4i+3 to KS bytes 4i..4i+3 and changes nothing else;
two KXINITs may be done in either order. -/
def Obligations.KxinitCopiesKeyWord : Prop :=
  ∀ (s : State) (i : BitVec 6), i.toNat < s.nk.toNat → s.nk.toNat ≤ 8 → Memory.wf s.ks = true →
    encode (.kxinit i) = .microOp (0x2C0 + i.setWidth 10) ∧
    (∀ j : BitVec 6, j.toNat < s.nk.toNat → ∃ t u v, exec (.kxinit i) s = .next t ∧ exec (.kxinit j) t = .next v ∧
      exec (.kxinit j) s = .next u ∧ exec (.kxinit i) u = .next v) ∧
    ∃ t, exec (.kxinit i) s = .next t ∧ t = { s with ks := t.ks } ∧ Memory.wf t.ks = true ∧
      (∀ k (_ : k < 4) (_ : 4 * i.toNat + k < 32), readByte t.ks (4 * i.toNat + k) = s.inBuf[4 * i.toNat + k]) ∧
      ∀ a, a < 4 * i.toNat ∨ 4 * i.toNat + 4 ≤ a → readByte t.ks a = readByte s.ks a

/-- R124: KXSTEP i, for a key size Nk and Nk ≤ i < 4(Nr+1): TMP by the three branches, then KS word i takes word i-Nk XOR TMP;
nothing else changes. Substituting and rotating may be exchanged; the word of four zero bytes is substituted to 63636363. -/
def Obligations.KxstepDerivesScheduleWord : Prop :=
  (∀ w : Word, subWord (rotWord w) = rotWord (subWord w)) ∧
  subWord #v[0x00, 0x00, 0x00, 0x00] = #v[0x63, 0x63, 0x63, 0x63] ∧
  ∀ (s : State) (i : BitVec 6), nkLegal s.nk = true → s.nk.toNat ≤ i.toNat → i.toNat < 4 * (s.nk.toNat + 6 + 1) →
    Memory.wf s.ks = true →
    let nk := s.nk.toNat
    let n := i.toNat
    encode (.kxstep i) = .microOp (0x300 + i.setWidth 10) ∧
    ∃ t, exec (.kxstep i) s = .next t ∧ t = { s with tmp := t.tmp, ks := t.ks } ∧ Memory.wf t.ks = true ∧
      (n % nk = 0 → ∃ rc, rcon (n / nk) = some rc ∧
        t.tmp[0] = sbox (readByte s.ks (4 * (n - 1) + 1)) ^^^ rc ∧ t.tmp[1] = sbox (readByte s.ks (4 * (n - 1) + 2)) ∧
        t.tmp[2] = sbox (readByte s.ks (4 * (n - 1) + 3)) ∧ t.tmp[3] = sbox (readByte s.ks (4 * (n - 1)))) ∧
      (n % nk ≠ 0 → nk > 6 ∧ n % nk = 4 → ∀ k (_ : k < 4), t.tmp[k] = sbox (readByte s.ks (4 * (n - 1) + k))) ∧
      (n % nk ≠ 0 → ¬(nk > 6 ∧ n % nk = 4) → ∀ k (_ : k < 4), t.tmp[k] = readByte s.ks (4 * (n - 1) + k)) ∧
      (∀ k (_ : k < 4), readByte t.ks (4 * n + k) = readByte s.ks (4 * (n - nk) + k) ^^^ t.tmp[k]) ∧
      ∀ a, a < 4 * n ∨ 4 * n + 4 ≤ a → readByte t.ks a = readByte s.ks a

/-- R130, over the KXSTEPs of Prog(KEYLOAD): the TMP of KXSTEP i (`kxTemp` of word i-1) is the substituted and rotated word
with RCON[j] added to its first byte when i mod Nk = 0, for j = i / Nk and no other j; with any other i it has no round constant.
The indices so used are 1 to 10, 1 to 8 and 1 to 7 for Nk = 4, 6 and 8, every one of them, and no other. -/
def Obligations.RconIndicesOfKxstep : Prop :=
  let usesRcon (nk i j : Nat) : Prop := ∀ w : Word,
    kxTemp nk i w = (rcon j).map fun rc => #v[sbox w[1] ^^^ rc, sbox w[2], sbox w[3], sbox w[0]]
  ∀ nk : BitVec 4, nkLegal nk = true →
    (∀ a : BitVec 6, .kxstep a ∈ progKeyload nk.toNat →
      (∀ s : State, s.nk = nk → ∃ t w, exec (.kxstep a) s = .next t ∧
        memRead s.ks (4 * (a.toNat - 1)) 4 = some w ∧ kxTemp nk.toNat a.toNat w = some t.tmp) ∧
      (∀ j, usesRcon nk.toNat a.toNat j ↔ a.toNat % nk.toNat = 0 ∧ j = a.toNat / nk.toNat) ∧
      (a.toNat % nk.toNat ≠ 0 → ∀ w : Word, kxTemp nk.toNat a.toNat w =
        some (if nk = 8 ∧ a.toNat % 8 = 4 then #v[sbox w[0], sbox w[1], sbox w[2], sbox w[3]] else w))) ∧
    ∀ j, (∃ a : BitVec 6, .kxstep a ∈ progKeyload nk.toNat ∧ usesRcon nk.toNat a.toNat j) ↔
      1 ≤ j ∧ ((nk = 4 ∧ j ≤ 10) ∨ (nk = 6 ∧ j ≤ 8) ∨ (nk = 8 ∧ j ≤ 7))

/-! ## Micro-op operands and frames -/

/-- Terms that are no instruction of the core are refused by name, in every state: a micro-op whose ARG the current NK does not
allow, with its word (R81; log entry 7), and a command whose payload is not LEN bytes, which is no frame (R12, R72). -/
def Obligations.IllegalTermsRefused : Prop :=
  ∀ (s : State) (a : BitVec 6),
    (s.nk.toNat + 6 < a.toNat → exec (.addroundkey a) s = .refused (.reservedMicroOp (0x1#4 ++ a))) ∧
    (s.nk.toNat ≤ a.toNat → exec (.kxinit a) s = .refused (.reservedMicroOp (0xB#4 ++ a))) ∧
    (a.toNat < s.nk.toNat ∨ 4 * (s.nk.toNat + 6 + 1) ≤ a.toNat →
      exec (.kxstep a) s = .refused (.reservedMicroOp (0xC#4 ++ a))) ∧
    ∀ (len : Byte) (p : List Byte), p.length ≠ len.toNat →
      exec (.keyload len p) s = .refused .malformedFrame ∧ exec (.encrypt len p) s = .refused .malformedFrame ∧
      exec (.decrypt len p) s = .refused .malformedFrame

/-- The frame of every micro-op: which register it may write, and that every KS byte outside the stored word reads as before. -/
def Obligations.MicroOpsChangeOnlyTheirTargets : Prop :=
  ∀ (i : Instr) (s t : State), exec i s = .next t →
    match i with
    | .keyload _ _ | .encrypt _ _ | .decrypt _ _ => True
    | .kxinit w => t = { s with ks := t.ks } ∧
        ∀ a, a < 4 * w.toNat ∨ 4 * w.toNat + 4 ≤ a → readByte t.ks a = readByte s.ks a
    | .kxstep w => t = { s with tmp := t.tmp, ks := t.ks } ∧
        ∀ a, a < 4 * w.toNat ∨ 4 * w.toNat + 4 ≤ a → readByte t.ks a = readByte s.ks a
    | .storeout => t = { s with out := t.out } ∧ ∀ a, readByte t.ks a = readByte s.ks a
    | .addroundkey _ | .subbytes | .shiftrows | .mixcolumns | .invsubbytes | .invshiftrows | .invmixcolumns | .loadstate =>
        t = { s with st := t.st } ∧ ∀ a, readByte t.ks a = readByte s.ks a

/-- The frame of the commands' ACCEPT: no command writes ST, TMP, OUT, IN above its payload, the command stream or any KS byte; a block command
keeps NK and KEY_VALID too. -/
def Obligations.CommandsChangeOnlyControl : Prop :=
  ∀ (len : Byte) (p : List Byte) (i : Instr) (s t : State),
    i = .keyload len p ∨ i = .encrypt len p ∨ i = .decrypt len p → exec i s = .next t →
    t.st = s.st ∧ t.tmp = s.tmp ∧ t.out = s.out ∧ (∀ a, readByte t.ks a = readByte s.ks a) ∧ t.ks = s.ks ∧
    t.cmdPort = s.cmdPort ∧ t.resetReq = s.resetReq ∧ t.resetCount = s.resetCount ∧
    (∀ k (_ : k < 32), p.length ≤ k → t.inBuf[k] = s.inBuf[k]) ∧
    (i ≠ .keyload len p → t.nk = s.nk ∧ t.keyValid = s.keyValid)

/-! ## The commands and ACCEPT (44_engine.md, 60_exceptions.md) -/

/-- KEYLOAD with a 16-, 24- or 32-byte key begins: the key is in IN, NK = LEN / 4, KEY_VALID = 0, BUSY = 1, UPC = 0; all else
keeps its value. -/
def Obligations.KeyloadBeginsOnLegalKey : Prop :=
  ∀ (s : State) (len : Byte) (p : List Byte), p.length = len.toNat → len = 16 ∨ len = 24 ∨ len = 32 →
    ∃ t, exec (.keyload len p) s = .next t ∧
      t = { s with inBuf := t.inBuf, inLen := t.inLen, cmd := 0x01, nk := t.nk, keyValid := false, upc := 0, busy := true } ∧
      (∀ k (_ : k < 32), t.inBuf[k] = if h : k < p.length then p[k] else s.inBuf[k]) ∧
      t.inLen.toNat = p.length ∧ 4 * t.nk.toNat = p.length

/-- ENCRYPT and DECRYPT of a 16-byte block with a key loaded begin: the block is in IN, BUSY = 1, UPC = 0; NK, KEY_VALID and
KS keep their values, and so does all else. -/
def Obligations.BlockCommandBeginsOnLegalBlock : Prop :=
  ∀ (s : State) (p : List Byte), p.length = 16 → s.keyValid = true →
    ∀ (i : Instr) (op : Byte), i = .encrypt 16 p ∧ op = 0x02 ∨ i = .decrypt 16 p ∧ op = 0x03 →
    ∃ t, exec i s = .next t ∧
      t = { s with inBuf := t.inBuf, inLen := 16, cmd := op, upc := 0, busy := true } ∧
      ∀ k (_ : k < 32), t.inBuf[k] = if h : k < p.length then p[k] else s.inBuf[k]

/-- R191: KEYLOAD with any of the other 253 lengths raises InvalidKeyLength; a key loaded earlier is still loaded. -/
def Obligations.KeyloadRefusesOtherLengths : Prop :=
  ∀ (s : State) (len : Byte) (p : List Byte), p.length = len.toNat → len ≠ 16 → len ≠ 24 → len ≠ 32 →
    exec (.keyload len p) s = .next (errorState 0x01 s)

/-- R192, R194, R197: a block command with no key raises NoKey whatever its length; with a key, any length but 16 raises
InvalidBlockLength. -/
def Obligations.BlockCommandErrors : Prop :=
  ∀ (s : State) (len : Byte) (p : List Byte), p.length = len.toNat →
    (s.keyValid = false → exec (.encrypt len p) s = .next (errorState 0x04 s) ∧
      exec (.decrypt len p) s = .next (errorState 0x04 s)) ∧
    (s.keyValid = true → len ≠ 16 → exec (.encrypt len p) s = .next (errorState 0x02 s) ∧
      exec (.decrypt len p) s = .next (errorState 0x02 s))

/-- R161: the ACCEPT step on a waiting frame of any opcode and length: the four checks in the order written, the first that
fails decides the error, which changes STATUS and the response stream only; a valid command writes IN, INLEN, CMD, UPC, BUSY,
and NK and KEY_VALID when it is KEYLOAD. The frame is removed from the stream in every case. -/
def Obligations.AcceptMakesTheChecksInOrder : Prop :=
  ∀ (s : State) (op len : Byte) (p rest : List Byte), Idle s → p.length = len.toNat →
    s.cmdPort = op :: len :: (p ++ rest) →
    let s0 : State := { s with cmdPort := rest }
    step s =
      if op ≠ 0x01 ∧ op ≠ 0x02 ∧ op ≠ 0x03 then .next (errorState 0x05 s0)
      else if (op = 0x02 ∨ op = 0x03) ∧ s.keyValid = false then .next (errorState 0x04 s0)
      else if op = 0x01 ∧ ¬(len = 16 ∨ len = 24 ∨ len = 32) then .next (errorState 0x01 s0)
      else if (op = 0x02 ∨ op = 0x03) ∧ len ≠ 16 then .next (errorState 0x02 s0)
      else .next { s0 with
        inBuf := Vector.ofFn fun k : Fin 32 => if h : k.val < p.length then p[k.val] else s.inBuf[k]
        inLen := BitVec.ofNat 6 len.toNat
        cmd := op
        nk := if op = 0x01 then BitVec.ofNat 4 (len.toNat / 4) else s.nk
        keyValid := if op = 0x01 then false else s.keyValid
        upc := 0
        busy := true }

/-- R195: a frame whose OP is reserved, with any payload, raises IllegalCommand; its payload is consumed. -/
def Obligations.ReservedOpcodeIsIllegalCommand : Prop :=
  ∀ (s : State) (op len : Byte) (p rest : List Byte), Idle s → op ≠ 0x01 → op ≠ 0x02 → op ≠ 0x03 →
    p.length = len.toNat → s.cmdPort = op :: len :: (p ++ rest) →
    step s = .next { s with cmdPort := rest, status := 0x05, responses := s.responses ++ [⟨0x05, 0, []⟩] }

/-- A frame not yet whole is not accepted: the engine keeps its state until the rest of it has arrived.
(That the step of an engine with no enabled step answers the same state is the model's choice, log entry 4.) -/
def Obligations.PartialFrameWaits : Prop :=
  ∀ (s : State) (op len : Byte) (p : List Byte), Idle s →
    s.cmdPort = [] ∨ s.cmdPort = [op] ∨ (s.cmdPort = op :: len :: p ∧ p.length < len.toNat) → step s = .next s

/-- R166: COMPLETE, when BUSY = 1 and UPC is the length of Prog(CMD, NK). -/
def Obligations.CompleteEndsTheCommand : Prop :=
  ∀ (s : State) (p : List Instr), s.busy = true → s.resetReq = false → prog s.cmd s.nk = some p →
    s.upc.toNat = p.length →
    (s.cmd = 0x01 → step s = .next { s with
      status := 0x00, keyValid := true, busy := false, responses := s.responses ++ [⟨0x00, 0, []⟩] }) ∧
    (s.cmd ≠ 0x01 → step s = .next { s with
      status := 0x00, busy := false, responses := s.responses ++ [⟨0x00, 16, s.out.toList⟩] })

/-- A step runs the decoded instruction (R160, R161, R165, R70, R85). With BUSY = 1, the word of the micro-op at UPC is decoded
under NK, and the step is its meaning followed by UPC + 1 (`finishExec`); with BUSY = 0, the command decoded from the port is run
on the stream that is left. (That a micro-op goes through its word and the decoder, and that `exec` of a command is its ACCEPT and
`exec` of a micro-op its effect without UPC + 1, is the model's reading of these rules: DEDUCED, log entries 14 and 10.) -/
def Obligations.StepRunsTheDecodedInstruction : Prop :=
  (∀ (s : State) (p : List Instr) (i j : Instr) (mw : BitVec 10), s.busy = true → s.resetReq = false →
    prog s.cmd s.nk = some p → p[s.upc.toNat]? = some i → encode i = .microOp mw → decodeMicroOp s.nk mw = .ok j →
    step s = finishExec (exec j s) ∧ ∀ t, exec j s = .next t → step s = .next { t with upc := t.upc + 1 }) ∧
  (∀ (s : State) (i : Instr) (rest : List Byte), Idle s → decodeFrame s.cmdPort = .command i rest →
    step s = exec i { s with cmdPort := rest })

/-! ## The micro-op lists -/

/-- R125: Prog(KEYLOAD): 4(Nr+1) micro-ops, number n being KXINIT n below Nk and KXSTEP n from there on. -/
def Obligations.KeyloadProgIsKeyExpansion : Prop :=
  ∀ nk : Nat, nk ≤ 8 → (progKeyload nk).length = 4 * (nk + 6 + 1) ∧
    ∀ n, n < 4 * (nk + 6 + 1) →
      (progKeyload nk)[n]? = some (if n < nk then .kxinit (.ofNat 6 n) else .kxstep (.ofNat 6 n))

/-- R163: Prog(ENCRYPT): 4Nr + 2 micro-ops, each at the place the rule gives it. -/
def Obligations.EncryptProgIsTheRoundSequence : Prop :=
  ∀ nr : Nat, 2 ≤ nr →
    let p := progEncrypt nr
    p.length = 4 * nr + 2 ∧ p[0]? = some .loadstate ∧ p[1]? = some (.addroundkey 0) ∧
    (∀ r, 1 ≤ r → r ≤ nr - 1 →
      p[4 * (r - 1) + 2]? = some .subbytes ∧ p[4 * (r - 1) + 3]? = some .shiftrows ∧
      p[4 * (r - 1) + 4]? = some .mixcolumns ∧ p[4 * (r - 1) + 5]? = some (.addroundkey (.ofNat 6 r))) ∧
    p[4 * nr - 2]? = some .subbytes ∧ p[4 * nr - 1]? = some .shiftrows ∧
    p[4 * nr]? = some (.addroundkey (.ofNat 6 nr)) ∧ p[4 * nr + 1]? = some .storeout

/-- R164: Prog(DECRYPT) is, between its two transfers, Prog(ENCRYPT) read backwards with every micro-op replaced by its
inverse; it has 4Nr + 2 micro-ops, each at the place the rule gives it. -/
def Obligations.DecryptProgIsEncryptReversed : Prop :=
  let inv : Instr → Instr := fun i => match i with
    | .subbytes => .invsubbytes
    | .shiftrows => .invshiftrows
    | .mixcolumns => .invmixcolumns
    | j => j
  ∀ nr : Nat, 2 ≤ nr →
    let p := progDecrypt nr
    p.length = 4 * nr + 2 ∧
    p = [.loadstate] ++ ((((progEncrypt nr).drop 1).dropLast).reverse.map inv) ++ [.storeout] ∧
    ∀ r, 1 ≤ r → r ≤ nr - 1 →
      p[4 * (nr - 1 - r) + 2]? = some .invshiftrows ∧ p[4 * (nr - 1 - r) + 3]? = some .invsubbytes ∧
      p[4 * (nr - 1 - r) + 4]? = some (.addroundkey (.ofNat 6 r)) ∧ p[4 * (nr - 1 - r) + 5]? = some .invmixcolumns

/-! ## Reset -/

/-- Reset, taken at any moment: the control registers take the values of R36, bytes not yet accepted are discarded, a command
in progress ends without a response; State.reset has the same values. (What the byte arrays hold is free after a reset event
and the model's choice, log entries 1 to 3, in State.reset: nothing is said of it here; that State.reset has an empty response
stream and a reset step keeps the responses is log entry 5; that bytes written after the host asserted reset and before this step
are discarded too is the model's choice, DESIGN CHOICE, log entry 17.) -/
def Obligations.ResetClearsControl : Prop :=
  let cleared (t : State) : Prop := t.busy = false ∧ t.keyValid = false ∧ t.nk = 0 ∧ t.cmd = 0 ∧ t.upc = 0 ∧ t.inLen = 0 ∧
    t.status = 0x00 ∧ t.cmdPort = []
  cleared State.reset ∧
  ∀ s : State, ∃ t, step (hostAssertReset s) = .next t ∧ cleared t ∧ t.responses = s.responses ∧ t.resetReq = false

/-- The invariants hold after reset. -/
def Obligations.ResetMeetsTheInvariants : Prop := CoreInv State.reset ∧ ScheduleInv State.reset

/-! ## Whole-machine rules -/

/-- R25: with BUSY = 1 a step either is EXEC and adds 1 to UPC, or is COMPLETE and keeps it; with BUSY = 0 a step that begins a
command clears it and any other keeps it; reset clears it. -/
def Obligations.UpcCountsByOneOrClears : Prop :=
  ∀ s t : State, step s = .next t →
    if s.resetReq = true then t.upc = 0
    else if s.busy = true then (t.busy = true ∧ t.upc = s.upc + 1) ∨ (t.busy = false ∧ t.upc = s.upc)
    else (t.busy = true ∧ t.upc = 0) ∨ (t.busy = false ∧ t.upc = s.upc)

/-- A busy engine does not look at the command port: no step of a command consumes a byte of it, and nothing is emitted before
the step that ends the command (R227, R61). -/
def Obligations.BusyEngineLeavesThePort : Prop :=
  ∀ s t : State, s.busy = true → s.resetReq = false → step s = .next t →
    t.cmdPort = s.cmdPort ∧
    ((t.busy = true ∧ t.responses = s.responses) ∨ (t.busy = false ∧ ∃ r, t.responses = s.responses ++ [r]))

/-- KS is written only inside KEYLOAD, while KEY_VALID = 0 (R30, R57, R224), and NK and KEY_VALID change only when a KEYLOAD is
accepted or completes (R33, R34): in every state that meets the invariant. -/
def Obligations.OnlyKeyloadChangesTheKey : Prop :=
  ∀ s t : State, CoreInv s → s.resetReq = false → step s = .next t →
    (t.ks ≠ s.ks → s.busy = true ∧ s.cmd = 0x01 ∧ s.keyValid = false) ∧
    ((t.nk ≠ s.nk ∨ t.keyValid ≠ s.keyValid) → t.cmd = 0x01 ∧ s.busy ≠ t.busy)

/-- Every step emits nothing or one response, and that response is one the core may send: OK with 0 or 16 bytes, or one of the
four errors with none; never NotImplemented (R75, R76, R193). (That a reset step leaves the responses already emitted in the stream
is the model's choice, the spec says nothing of them: DESIGN CHOICE, log entry 5.) -/
def Obligations.EveryResponseIsOneOfTheTable : Prop :=
  ∀ s t : State, step s = .next t →
    t.responses = s.responses ∨
    ∃ r, t.responses = s.responses ++ [r] ∧ Emittable r ∧ r.rs ≠ 0x03 ∧ r.rs = t.status ∧ t.busy = false

/-- R174: no data-dependent control flow. Two busy states that agree on BUSY, CMD, NK, UPC, KEY_VALID and the reset request, and
in nothing else, step to states that agree on them again. -/
def Obligations.ControlFlowIgnoresData : Prop :=
  let agree (a b : State) : Prop := a.busy = b.busy ∧ a.cmd = b.cmd ∧ a.nk = b.nk ∧ a.upc = b.upc ∧
    a.keyValid = b.keyValid ∧ a.resetReq = b.resetReq
  ∀ s s' t : State, agree s s' → s.busy = true → step s = .next t → ∃ t', step s' = .next t' ∧ agree t t'

/-! ## Invariants -/

/-- Every step keeps the invariant, from every state that meets it: the canonical form of KS, the registers' ranges, and what
BUSY and KEY_VALID promise. -/
def Obligations.StepKeepsInvariant : Prop := ∀ s t : State, CoreInv s → step s = .next t → CoreInv t

/-- Every step keeps the schedule invariant: KEY_VALID = 1 only with a complete schedule in KS (R26, R56, R161). -/
def Obligations.StepKeepsScheduleInvariant : Prop :=
  ∀ s t : State, CoreInv s → ScheduleInv s → step s = .next t → ScheduleInv t

/-- In a state that meets the invariant no step stops: nothing inside a command can fail (R196, R229). -/
def Obligations.InvariantStatesNeverStop : Prop := ∀ s : State, CoreInv s → ∃ t, step s = .next t

/-! ## Whole commands -/

/-- A KEYLOAD of a legal key, from any idle state with canonical KS: after 4(Nk+7) + 2 steps, and not before, the command is
over, KEY_VALID = 1, the first Nk words are the key, every later word obeys R124, bytes above the schedule are untouched, OUT is
unchanged and one response OK is emitted (R167, R228). -/
def Obligations.KeyloadExpandsTheKey : Prop :=
  ∀ (s : State) (key rest : List Byte), Idle s → Memory.wf s.ks = true →
    key.length = 16 ∨ key.length = 24 ∨ key.length = 32 → s.cmdPort = commandFrame 0x01 key ++ rest →
    let nk := key.length / 4
    ∃ t, run (4 * (nk + 7) + 2) s = .next t ∧
      Idle t ∧ t.keyValid = true ∧ t.nk.toNat = nk ∧ t.status = 0x00 ∧ t.cmdPort = rest ∧ t.out = s.out ∧
      t.responses = s.responses ++ [⟨0x00, 0, []⟩] ∧ Memory.wf t.ks = true ∧
      (∀ k (_ : k < key.length), readByte t.ks k = key[k]) ∧
      (∀ i, nk ≤ i → i < 4 * (nk + 7) → ScheduleWord t.ks nk i) ∧
      (∀ a, 16 * (nk + 7) ≤ a → readByte t.ks a = readByte s.ks a) ∧
      ∀ n, 1 ≤ n → n < 4 * (nk + 7) + 2 → ∃ u, run n s = .next u ∧ u.busy = true ∧ u.keyValid = false

/-- ENCRYPT of a block under any loaded schedule: after 4Nr + 4 steps, and not before, the response is OK with the cipher's
value of that block; KS, NK and KEY_VALID are as they were (R168, R228). -/
def Obligations.EncryptAnswersTheCipher : Prop :=
  ∀ (s : State) (p : Block) (rest : List Byte), Idle s → s.keyValid = true → nkLegal s.nk = true →
    s.cmdPort = commandFrame 0x02 p.toList ++ rest →
    let nr := s.nk.toNat + 6
    ∃ t, run (4 * nr + 4) s = .next t ∧
      Idle t ∧ t.status = 0x00 ∧ t.ks = s.ks ∧ t.nk = s.nk ∧ t.keyValid = true ∧ t.cmdPort = rest ∧
      t.responses = s.responses ++ [⟨0x00, 16, (cipher s.ks nr p).toList⟩] ∧
      ∀ n, 1 ≤ n → n < 4 * nr + 4 → ∃ u, run n s = .next u ∧ u.busy = true

/-- DECRYPT of a block under any loaded schedule: after 4Nr + 4 steps, and not before, the response is OK with the inverse
cipher's value of that block; KS, NK and KEY_VALID are as they were (R169, R228). -/
def Obligations.DecryptAnswersTheInverseCipher : Prop :=
  ∀ (s : State) (c : Block) (rest : List Byte), Idle s → s.keyValid = true → nkLegal s.nk = true →
    s.cmdPort = commandFrame 0x03 c.toList ++ rest →
    let nr := s.nk.toNat + 6
    ∃ t, run (4 * nr + 4) s = .next t ∧
      Idle t ∧ t.status = 0x00 ∧ t.ks = s.ks ∧ t.nk = s.nk ∧ t.keyValid = true ∧ t.cmdPort = rest ∧
      t.responses = s.responses ++ [⟨0x00, 16, (invCipher s.ks nr c).toList⟩] ∧
      ∀ n, 1 ≤ n → n < 4 * nr + 4 → ∃ u, run n s = .next u ∧ u.busy = true

/-- R170: a block command on p is answered OK c, and the other direction on c, later and from any idle state with the same
schedule, is answered OK p: for every schedule, key size and block, in both orders. The first command leaves such a state. -/
def Obligations.DecryptUndoesEncrypt : Prop :=
  ∀ (s : State) (p : Block) (op op' : Byte), Idle s → s.keyValid = true → nkLegal s.nk = true →
    op = 0x02 ∧ op' = 0x03 ∨ op = 0x03 ∧ op' = 0x02 →
    s.cmdPort = commandFrame op p.toList →
    let n := 4 * (s.nk.toNat + 6) + 4
    ∃ (t : State) (c : Block), run n s = .next t ∧
      t.responses = s.responses ++ [⟨0x00, 16, c.toList⟩] ∧
      Idle t ∧ t.keyValid = true ∧ t.ks = s.ks ∧ t.nk = s.nk ∧ t.cmdPort = [] ∧
      ∀ u : State, Idle u → u.keyValid = true → u.ks = t.ks → u.nk = t.nk →
        u.cmdPort = commandFrame op' c.toList →
        ∃ v, run n u = .next v ∧ v.responses = u.responses ++ [⟨0x00, 16, p.toList⟩]

/-- R171: the response payload of a block command is a function of the key of the last KEYLOAD, the block and the direction:
two machines in any two idle states with canonical KS, whatever their registers and KS hold, give the same payload. -/
def Obligations.ResponseDependsOnKeyAndBlockOnly : Prop :=
  ∀ (s s' : State) (key : List Byte) (p : Block) (op : Byte), Idle s → Idle s' → Memory.wf s.ks = true →
    Memory.wf s'.ks = true → key.length = 16 ∨ key.length = 24 ∨ key.length = 32 → op = 0x02 ∨ op = 0x03 →
    s.cmdPort = commandFrame 0x01 key ++ commandFrame op p.toList →
    s'.cmdPort = commandFrame 0x01 key ++ commandFrame op p.toList →
    let nk := key.length / 4
    let n := (4 * (nk + 7) + 2) + (4 * (nk + 6) + 4)
    ∃ (t t' : State) (c : Block), run n s = .next t ∧ run n s' = .next t' ∧
      t.responses = s.responses ++ [⟨0x00, 0, []⟩, ⟨0x00, 16, c.toList⟩] ∧
      t'.responses = s'.responses ++ [⟨0x00, 0, []⟩, ⟨0x00, 16, c.toList⟩]
end

