-- ==== Sys2Proof/Laws/Field.lean ====
section
/-! SUPPORT. XTIME and GMUL are linear over XOR, and a property that XOR keeps holds of every byte once it holds of the eight
single bits (40_gf_arithmetic.md R100 to R102). -/

namespace Sys2Proof.Machine

theorem byte_xor_left_comm (a b c : Byte) : a ^^^ (b ^^^ c) = b ^^^ (a ^^^ c) := by ac_rfl

/-- XTIME as one shift and one conditional XOR (R100). -/
theorem xtime_eq (b : Byte) : xtime b = (b <<< 1) ^^^ (if b.getLsbD 7 = true then 0x1B#8 else 0x00#8) := by
  revert b; decide

theorem xtime_xor (a b : Byte) : xtime (a ^^^ b) = xtime a ^^^ xtime b := by
  simp only [xtime_eq, BitVec.shiftLeft_xor_distrib, BitVec.getLsbD_xor]
  cases a.getLsbD 7 <;> cases b.getLsbD 7 <;> simp [BitVec.xor_assoc, BitVec.xor_comm, byte_xor_left_comm]

theorem xtime_zero : xtime 0 = 0 := by decide

theorem gmulLoop_acc (n : Nat) (p q a b : Byte) : gmulLoop n (p ^^^ q) a b = p ^^^ gmulLoop n q a b := by
  induction n generalizing q a b with
  | zero => rfl
  | succ n ih =>
    simp only [gmulLoop]
    rw [← ih]
    split_ifs <;> simp [BitVec.xor_assoc]

theorem gmulLoop_xor_left (n : Nat) (p q a a' b : Byte) :
    gmulLoop n (p ^^^ q) (a ^^^ a') b = gmulLoop n p a b ^^^ gmulLoop n q a' b := by
  induction n generalizing p q a a' b with
  | zero => rfl
  | succ n ih =>
    simp only [gmulLoop, xtime_xor]
    rw [← ih]
    congr 1
    split_ifs
    · simp only [BitVec.xor_assoc, byte_xor_left_comm q a]
    · rfl

theorem gmulLoop_xor_right (n : Nat) (p q a b b' : Byte) :
    gmulLoop n (p ^^^ q) a (b ^^^ b') = gmulLoop n p a b ^^^ gmulLoop n q a b' := by
  induction n generalizing p q a b b' with
  | zero => rfl
  | succ n ih =>
    simp only [gmulLoop, BitVec.ushiftRight_xor_distrib, BitVec.getLsbD_xor]
    rw [← ih]
    congr 1
    have hx : p ^^^ a ^^^ (q ^^^ a) = p ^^^ q := by
      rw [BitVec.xor_assoc, byte_xor_left_comm a q a, BitVec.xor_self, BitVec.xor_zero]
    cases b.getLsbD 0 <;> cases b'.getLsbD 0 <;>
      simp [hx, BitVec.xor_comm, byte_xor_left_comm]

/-- GMUL distributes over XOR in its first operand. -/
theorem gmul_xor_left (a a' b : Byte) : gmul (a ^^^ a') b = gmul a b ^^^ gmul a' b := by
  simpa [gmul] using gmulLoop_xor_left 8 0 0 a a' b

/-- GMUL distributes over XOR in its second operand. -/
theorem gmul_xor_right (a b b' : Byte) : gmul a (b ^^^ b') = gmul a b ^^^ gmul a b' := by
  simpa [gmul] using gmulLoop_xor_right 8 0 0 a b b'

/-- A property that holds of 0 and of the eight single bits, and that XOR keeps, holds of every byte. -/
theorem byte_induction {P : Byte → Prop} (zero : P 0) (xor : ∀ a b, P a → P b → P (a ^^^ b))
    (bit : ∀ i : Fin 8, P (1#8 <<< i.val)) (b : Byte) : P b := by
  have split : ∀ b : Byte, b = (List.finRange 8).foldl
      (fun p i => p ^^^ (if b.getLsbD i.val = true then 1#8 <<< i.val else 0)) 0 := by decide
  have fold : ∀ (c : Byte) (l : List (Fin 8)) (p : Byte), P p → P (l.foldl
      (fun p i => p ^^^ (if c.getLsbD i.val = true then 1#8 <<< i.val else 0)) p) := by
    intro c l
    induction l with
    | nil => exact fun p hp => hp
    | cons i l ih =>
      intro p hp
      refine ih _ (xor _ _ hp ?_)
      split_ifs
      · exact bit i
      · exact zero
  rw [split b]
  exact fold b _ 0 zero

end Sys2Proof.Machine
end

