-- ==== Sys2Proof/Laws/Block.lean ====
section
/-! SUPPORT. The bytes and cells of blocks and words after each operation of RDP and KXU: one lemma per function, which later
proofs cite instead of unfolding it. -/

namespace Sys2Proof.Machine

/-! ### XOR of byte sequences -/

@[simp] theorem xorBytes_getElem {n : Nat} (u v : Vector Byte n) (k : Nat) (hk : k < n) :
    (xorBytes u v)[k] = u[k] ^^^ v[k] := by
  simp [xorBytes]

theorem xorBytes_cancel_right {n : Nat} (u v : Vector Byte n) : xorBytes (xorBytes u v) v = u := by
  ext k hk
  simp

theorem xorBytes_comm {n : Nat} (u v : Vector Byte n) : xorBytes u v = xorBytes v u := by
  ext k hk
  simp [BitVec.xor_comm]

/-! ### Cells -/

theorem cell_eq_getElem (b : Block) (r c : Fin 4) : cell b r c = b[r.val + 4 * c.val] := rfl

theorem getElem_eq_cell (b : Block) (k : Nat) (hk : k < 16) :
    b[k] = cell b ⟨k % 4, by omega⟩ ⟨k / 4, by omega⟩ := by
  simp only [cell]
  congr 1
  omega

@[simp] theorem ofCells_getElem (f : Fin 4 → Fin 4 → Byte) (k : Nat) (hk : k < 16) :
    (ofCells f)[k] = f ⟨k % 4, by omega⟩ ⟨k / 4, by omega⟩ := by
  simp [ofCells]

@[simp] theorem cell_ofCells (f : Fin 4 → Fin 4 → Byte) (r c : Fin 4) : cell (ofCells f) r c = f r c := by
  simp only [cell, ofCells_getElem]
  congr 1 <;> ext <;> (simp; try omega)

/-- Two blocks with the same cells are the same block. -/
theorem block_ext_cell {b b' : Block} (h : ∀ r c, cell b r c = cell b' r c) : b = b' := by
  ext k hk
  rw [getElem_eq_cell b k hk, getElem_eq_cell b' k hk, h]

@[simp] theorem cell_xorBytes (u v : Block) (r c : Fin 4) : cell (xorBytes u v) r c = cell u r c ^^^ cell v r c := by
  simp [cell]

/-! ### The operations of RDP -/

@[simp] theorem subBytes_getElem (b : Block) (k : Nat) (hk : k < 16) : (subBytes b)[k] = sbox b[k] := by
  simp [subBytes]

@[simp] theorem invSubBytes_getElem (b : Block) (k : Nat) (hk : k < 16) : (invSubBytes b)[k] = invSbox b[k] := by
  simp [invSubBytes]

@[simp] theorem cell_subBytes (b : Block) (r c : Fin 4) : cell (subBytes b) r c = sbox (cell b r c) := by
  simp [cell]

@[simp] theorem cell_invSubBytes (b : Block) (r c : Fin 4) : cell (invSubBytes b) r c = invSbox (cell b r c) := by
  simp [cell]

@[simp] theorem cell_shiftRows (b : Block) (r c : Fin 4) : cell (shiftRows b) r c = cell b r (c + r) := by
  simp [shiftRows]

@[simp] theorem cell_invShiftRows (b : Block) (r c : Fin 4) : cell (invShiftRows b) r c = cell b r (c - r) := by
  simp [invShiftRows]

theorem cell_mixWith (row : Word) (b : Block) (r c : Fin 4) :
    cell (mixWith row b) r c =
      gmul row[(0 - r : Fin 4)] (cell b 0 c) ^^^ gmul row[(1 - r : Fin 4)] (cell b 1 c) ^^^
      gmul row[(2 - r : Fin 4)] (cell b 2 c) ^^^ gmul row[(3 - r : Fin 4)] (cell b 3 c) := by
  simp [mixWith]

theorem mixWith_xorBytes (row : Word) (a b : Block) :
    mixWith row (xorBytes a b) = xorBytes (mixWith row a) (mixWith row b) := by
  apply block_ext_cell
  intro r c
  simp only [cell_mixWith, cell_xorBytes, gmul_xor_right]
  ac_rfl

/-! ### The function units of KXU -/

@[simp] theorem rotWord_getElem (w : Word) (k : Nat) (hk : k < 4) : (rotWord w)[k] = w[(k + 1) % 4] := by
  match k, hk with
  | 0, _ | 1, _ | 2, _ | 3, _ => rfl

@[simp] theorem subWord_getElem (w : Word) (k : Nat) (hk : k < 4) : (subWord w)[k] = sbox w[k] := by
  simp [subWord]

/-! ### IN -/

@[simp] theorem latch_getElem (buf : Vector Byte 32) (p : List Byte) (k : Nat) (hk : k < 32) :
    (latch buf p)[k] = if h : k < p.length then p[k] else buf[k] := by
  by_cases h : k < p.length <;> simp [latch, h, List.getD_eq_getElem?_getD]

@[simp] theorem inBlock_getElem (buf : Vector Byte 32) (k : Nat) (hk : k < 16) : (inBlock buf)[k] = buf[k] := by
  simp [inBlock]

theorem inWord_getElem (buf : Vector Byte 32) (i k : Nat) (hk : k < 4) (h : 4 * i + k < 32) :
    (inWord buf i)[k] = buf[4 * i + k] := by
  simp [inWord, List.getD_eq_getElem?_getD, h]

end Sys2Proof.Machine
end

