-- ==== Sys2Proof/Laws/Memory.lean ====
section
/-! SUPPORT. The laws of KS: the canonical form is kept, a read after a write gives the value written, a write leaves every
other byte alone (20_memory.md R51, R59). -/

namespace Sys2Proof.Machine

/-! ### The canonical form -/

theorem wfFrom_cons {lo a : Nat} {v : Byte} {m : Memory} :
    Memory.wfFrom lo ((a, v) :: m) = true ↔
      lo ≤ a ∧ a < Config.ksBytes ∧ v ≠ Memory.unlisted ∧ Memory.wfFrom (a + 1) m = true := by
  simp [Memory.wfFrom, and_assoc]

theorem wfFrom_mono {lo lo' : Nat} {m : Memory} (h : lo' ≤ lo) (hm : Memory.wfFrom lo m = true) :
    Memory.wfFrom lo' m = true := by
  cases m with
  | nil => rfl
  | cons c m =>
    obtain ⟨a, v⟩ := c
    rw [wfFrom_cons] at hm ⊢
    exact ⟨by omega, hm.2⟩

theorem readByte_below {lo a : Nat} {m : Memory} (hm : Memory.wfFrom lo m = true) (ha : a < lo) :
    readByte m a = Memory.unlisted := by
  induction m generalizing lo with
  | nil => rfl
  | cons c m ih =>
    obtain ⟨b, v⟩ := c
    rw [wfFrom_cons] at hm
    have hne : a ≠ b := by omega
    simpa [readByte, hne] using ih hm.2.2.2 (by omega)

theorem readByte_outside {lo a : Nat} {m : Memory} (hm : Memory.wfFrom lo m = true) (ha : Config.ksBytes ≤ a) :
    readByte m a = Memory.unlisted := by
  induction m generalizing lo with
  | nil => rfl
  | cons c m ih =>
    obtain ⟨b, v⟩ := c
    rw [wfFrom_cons] at hm
    have hne : a ≠ b := by omega
    simpa [readByte, hne] using ih hm.2.2.2

theorem writeByte_wfFrom {lo a : Nat} {v : Byte} {m : Memory} (hm : Memory.wfFrom lo m = true) (hlo : lo ≤ a)
    (ha : a < Config.ksBytes) : Memory.wfFrom lo (writeByte m a v) = true := by
  induction m generalizing lo with
  | nil =>
    by_cases hv : v = Memory.unlisted
    · simp [writeByte, hv, Memory.wfFrom]
    · simp only [writeByte, hv, if_false]
      exact wfFrom_cons.2 ⟨hlo, ha, hv, rfl⟩
  | cons c m ih =>
    obtain ⟨b, w⟩ := c
    have hc := wfFrom_cons.1 hm
    unfold writeByte
    split_ifs with h1 h2 h3 h4
    · exact hm
    · exact wfFrom_cons.2 ⟨hlo, ha, h2, wfFrom_cons.2 ⟨by omega, hc.2⟩⟩
    · exact wfFrom_mono (by omega) hc.2.2.2
    · exact wfFrom_cons.2 ⟨hlo, ha, h4, h3 ▸ hc.2.2.2⟩
    · exact wfFrom_cons.2 ⟨hc.1, hc.2.1, hc.2.2.1, ih hc.2.2.2 (by omega)⟩

theorem writeByte_wf {a : Nat} {v : Byte} {m : Memory} (hm : Memory.wf m = true) (ha : a < Config.ksBytes) :
    Memory.wf (writeByte m a v) = true := writeByte_wfFrom hm (Nat.zero_le _) ha

theorem writeBytes_wf {a : Nat} {vs : List Byte} {m : Memory} (hm : Memory.wf m = true)
    (ha : a + vs.length ≤ Config.ksBytes) : Memory.wf (writeBytes m a vs) = true := by
  induction vs generalizing m a with
  | nil => exact hm
  | cons v vs ih =>
    simp only [List.length_cons] at ha
    exact ih (writeByte_wf hm (by omega)) (by omega)

theorem filterMap_range'_wf (f : Nat → Byte) (lo n : Nat) (h : lo + n ≤ Config.ksBytes) :
    Memory.wfFrom lo ((List.range' lo n).filterMap fun a =>
      if f a = Memory.unlisted then none else some (a, f a)) = true := by
  induction n generalizing lo with
  | zero => rfl
  | succ n ih =>
    have ih := ih (lo + 1) (by omega)
    by_cases hv : f lo = Memory.unlisted
    · simpa [List.range'_succ, hv] using wfFrom_mono (Nat.le_succ lo) ih
    · simp only [List.range'_succ, List.filterMap_cons, hv, if_false]
      exact wfFrom_cons.2 ⟨le_refl _, by omega, hv, ih⟩

/-- The KS contents a reset event leaves are in canonical form, whatever the free bytes are. -/
theorem resetKs_wf (n : Nat) : Memory.wf (resetKs n) = true := by
  have h := filterMap_range'_wf (Config.resetByte n .ks) 0 Config.ksBytes (by omega)
  rwa [← List.range_eq_range'] at h

/-! ### Reads after writes -/

/-- A write leaves every other byte alone, in any memory. -/
theorem readByte_writeByte_other {a x : Nat} (m : Memory) (v : Byte) (h : x ≠ a) :
    readByte (writeByte m a v) x = readByte m x := by
  induction m with
  | nil => by_cases hv : v = Memory.unlisted <;> simp [writeByte, readByte, hv, h]
  | cons c m ih =>
    obtain ⟨b, w⟩ := c
    unfold writeByte
    split_ifs with h1 h2 h3 h4
    · rfl
    · simp [readByte, h]
    · subst h3; simp [readByte, h]
    · subst h3; simp [readByte, h]
    · simp [readByte, ih]

/-- In a canonical memory, a read after a write to the same byte gives the byte written. -/
theorem readByte_writeByte_same {lo a : Nat} {m : Memory} (v : Byte) (hm : Memory.wfFrom lo m = true) :
    readByte (writeByte m a v) a = v := by
  induction m generalizing lo with
  | nil => by_cases hv : v = Memory.unlisted <;> simp [writeByte, readByte, hv]
  | cons c m ih =>
    obtain ⟨b, w⟩ := c
    have hc := wfFrom_cons.1 hm
    unfold writeByte
    split_ifs with h1 h2 h3 h4
    · have hne : a ≠ b := by omega
      simpa [readByte, hne, h2] using readByte_below hc.2.2.2 (show a < b + 1 by omega)
    · simp [readByte]
    · subst h3; simpa [h4] using readByte_below hc.2.2.2 (Nat.lt_succ_self a)
    · simp [readByte]
    · simpa [readByte, h3] using ih hc.2.2.2

theorem readByte_writeBytes_other {a x : Nat} (m : Memory) (vs : List Byte) (h : x < a ∨ a + vs.length ≤ x) :
    readByte (writeBytes m a vs) x = readByte m x := by
  induction vs generalizing m a with
  | nil => rfl
  | cons v vs ih =>
    simp only [List.length_cons] at h
    rw [writeBytes, ih _ (by omega), readByte_writeByte_other m v (by omega)]

theorem readByte_writeBytes_in {a k : Nat} {m : Memory} (vs : List Byte) (hm : Memory.wf m = true)
    (ha : a + vs.length ≤ Config.ksBytes) (hk : k < vs.length) :
    readByte (writeBytes m a vs) (a + k) = vs[k] := by
  induction vs generalizing m a k with
  | nil => simp at hk
  | cons v vs ih =>
    simp only [List.length_cons] at ha hk
    cases k with
    | zero =>
      rw [writeBytes, readByte_writeBytes_other _ _ (by omega), Nat.add_zero, readByte_writeByte_same v hm]
      rfl
    | succ k =>
      have h := ih (k := k) (writeByte_wf (v := v) hm (show a < Config.ksBytes by omega))
        (show a + 1 + vs.length ≤ Config.ksBytes by omega) (show k < vs.length by omega)
      rw [writeBytes, show a + (k + 1) = a + 1 + k by omega, h]
      rfl

/-! ### MemRead and MemWrite -/

theorem memRead_eq {m : Memory} {a n : Nat} (h : a + n ≤ Config.ksBytes) :
    memRead m a n = some (Vector.ofFn fun k : Fin n => readByte m (a + k)) := by
  simp [memRead, h]

theorem memRead_isSome_iff {m : Memory} {a n : Nat} : (memRead m a n).isSome = true ↔ a + n ≤ Config.ksBytes := by
  unfold memRead; split_ifs with h <;> simp [h]

theorem memWrite_eq {n : Nat} {m : Memory} {a : Nat} (v : Vector Byte n) (h : a + n ≤ Config.ksBytes) :
    memWrite m a v = some (writeBytes m a v.toList) := by
  simp [memWrite, h]

/-- All that MemWrite does: it stays inside KS, keeps the canonical form, and changes the n bytes at a to v and no other. -/
theorem memWrite_spec {n : Nat} {m m' : Memory} {a : Nat} {v : Vector Byte n} (h : memWrite m a v = some m') :
    a + n ≤ Config.ksBytes ∧
    (∀ x, x < a ∨ a + n ≤ x → readByte m' x = readByte m x) ∧
    (Memory.wf m = true → Memory.wf m' = true ∧ ∀ (k : Nat) (hk : k < n), readByte m' (a + k) = v[k]) := by
  unfold memWrite at h
  split_ifs at h with hb
  obtain rfl := Option.some.inj h
  have hl : v.toList.length = n := by simp
  refine ⟨hb, fun x hx => readByte_writeBytes_other _ _ (by omega), fun hm => ⟨writeBytes_wf hm (by omega), ?_⟩⟩
  intro k hk
  rw [readByte_writeBytes_in v.toList hm (by omega) (by omega)]
  simp

/-- Two canonical memories with the same bytes are the same memory. -/
theorem wfFrom_ext {lo : Nat} {m m' : Memory} (hm : Memory.wfFrom lo m = true) (hm' : Memory.wfFrom lo m' = true)
    (h : ∀ a, readByte m a = readByte m' a) : m = m' := by
  induction m generalizing lo m' with
  | nil =>
    cases m' with
    | nil => rfl
    | cons c m' =>
      obtain ⟨b, w⟩ := c
      have hb := h b
      have hc := wfFrom_cons.1 hm'
      simp only [readByte, if_true] at hb
      exact absurd hb.symm hc.2.2.1
  | cons c m ih =>
    obtain ⟨a, v⟩ := c
    have hc := wfFrom_cons.1 hm
    cases m' with
    | nil =>
      have ha := h a
      simp only [readByte, if_true] at ha
      exact absurd ha hc.2.2.1
    | cons c' m' =>
      obtain ⟨b, w⟩ := c'
      have hc' := wfFrom_cons.1 hm'
      have hab : a = b := by
        rcases lt_trichotomy a b with hlt | heq | hlt
        · have ha := h a
          simp only [readByte, if_true, if_neg (show a ≠ b by omega)] at ha
          rw [readByte_below hc'.2.2.2 (by omega)] at ha
          exact absurd ha hc.2.2.1
        · exact heq
        · have hb := h b
          simp only [readByte, if_true, if_neg (show b ≠ a by omega)] at hb
          rw [readByte_below hc.2.2.2 (by omega)] at hb
          exact absurd hb.symm hc'.2.2.1
      subst hab
      have hv : v = w := by simpa [readByte] using h a
      subst hv
      congr 1
      refine ih hc.2.2.2 hc'.2.2.2 fun x => ?_
      by_cases hx : x = a
      · subst hx
        rw [readByte_below hc.2.2.2 (by omega), readByte_below hc'.2.2.2 (by omega)]
      · simpa [readByte, hx] using h x

end Sys2Proof.Machine
end

