-- ==== Sys2Proof/Laws/State.lean ====
section
/-! SUPPORT. What each field of the state is after each named update: one lemma per field per update, true by unfolding the update. -/

namespace Sys2Proof.Machine

variable (s : State)

/-! ### setSt -/

@[simp] theorem setSt_st (b : Block) : (setSt s b).st = b := rfl
@[simp] theorem setSt_tmp (b : Block) : (setSt s b).tmp = s.tmp := rfl
@[simp] theorem setSt_inBuf (b : Block) : (setSt s b).inBuf = s.inBuf := rfl
@[simp] theorem setSt_inLen (b : Block) : (setSt s b).inLen = s.inLen := rfl
@[simp] theorem setSt_out (b : Block) : (setSt s b).out = s.out := rfl
@[simp] theorem setSt_ks (b : Block) : (setSt s b).ks = s.ks := rfl
@[simp] theorem setSt_nk (b : Block) : (setSt s b).nk = s.nk := rfl
@[simp] theorem setSt_keyValid (b : Block) : (setSt s b).keyValid = s.keyValid := rfl
@[simp] theorem setSt_busy (b : Block) : (setSt s b).busy = s.busy := rfl
@[simp] theorem setSt_cmd (b : Block) : (setSt s b).cmd = s.cmd := rfl
@[simp] theorem setSt_upc (b : Block) : (setSt s b).upc = s.upc := rfl
@[simp] theorem setSt_status (b : Block) : (setSt s b).status = s.status := rfl
@[simp] theorem setSt_cmdPort (b : Block) : (setSt s b).cmdPort = s.cmdPort := rfl
@[simp] theorem setSt_responses (b : Block) : (setSt s b).responses = s.responses := rfl
@[simp] theorem setSt_resetReq (b : Block) : (setSt s b).resetReq = s.resetReq := rfl
@[simp] theorem setSt_resetCount (b : Block) : (setSt s b).resetCount = s.resetCount := rfl

/-! ### setOut -/

@[simp] theorem setOut_st (b : Block) : (setOut s b).st = s.st := rfl
@[simp] theorem setOut_tmp (b : Block) : (setOut s b).tmp = s.tmp := rfl
@[simp] theorem setOut_inBuf (b : Block) : (setOut s b).inBuf = s.inBuf := rfl
@[simp] theorem setOut_inLen (b : Block) : (setOut s b).inLen = s.inLen := rfl
@[simp] theorem setOut_out (b : Block) : (setOut s b).out = b := rfl
@[simp] theorem setOut_ks (b : Block) : (setOut s b).ks = s.ks := rfl
@[simp] theorem setOut_nk (b : Block) : (setOut s b).nk = s.nk := rfl
@[simp] theorem setOut_keyValid (b : Block) : (setOut s b).keyValid = s.keyValid := rfl
@[simp] theorem setOut_busy (b : Block) : (setOut s b).busy = s.busy := rfl
@[simp] theorem setOut_cmd (b : Block) : (setOut s b).cmd = s.cmd := rfl
@[simp] theorem setOut_upc (b : Block) : (setOut s b).upc = s.upc := rfl
@[simp] theorem setOut_status (b : Block) : (setOut s b).status = s.status := rfl
@[simp] theorem setOut_cmdPort (b : Block) : (setOut s b).cmdPort = s.cmdPort := rfl
@[simp] theorem setOut_responses (b : Block) : (setOut s b).responses = s.responses := rfl
@[simp] theorem setOut_resetReq (b : Block) : (setOut s b).resetReq = s.resetReq := rfl
@[simp] theorem setOut_resetCount (b : Block) : (setOut s b).resetCount = s.resetCount := rfl

/-! ### setTmp -/

@[simp] theorem setTmp_st (w : Word) : (setTmp s w).st = s.st := rfl
@[simp] theorem setTmp_tmp (w : Word) : (setTmp s w).tmp = w := rfl
@[simp] theorem setTmp_inBuf (w : Word) : (setTmp s w).inBuf = s.inBuf := rfl
@[simp] theorem setTmp_inLen (w : Word) : (setTmp s w).inLen = s.inLen := rfl
@[simp] theorem setTmp_out (w : Word) : (setTmp s w).out = s.out := rfl
@[simp] theorem setTmp_ks (w : Word) : (setTmp s w).ks = s.ks := rfl
@[simp] theorem setTmp_nk (w : Word) : (setTmp s w).nk = s.nk := rfl
@[simp] theorem setTmp_keyValid (w : Word) : (setTmp s w).keyValid = s.keyValid := rfl
@[simp] theorem setTmp_busy (w : Word) : (setTmp s w).busy = s.busy := rfl
@[simp] theorem setTmp_cmd (w : Word) : (setTmp s w).cmd = s.cmd := rfl
@[simp] theorem setTmp_upc (w : Word) : (setTmp s w).upc = s.upc := rfl
@[simp] theorem setTmp_status (w : Word) : (setTmp s w).status = s.status := rfl
@[simp] theorem setTmp_cmdPort (w : Word) : (setTmp s w).cmdPort = s.cmdPort := rfl
@[simp] theorem setTmp_responses (w : Word) : (setTmp s w).responses = s.responses := rfl
@[simp] theorem setTmp_resetReq (w : Word) : (setTmp s w).resetReq = s.resetReq := rfl
@[simp] theorem setTmp_resetCount (w : Word) : (setTmp s w).resetCount = s.resetCount := rfl

/-! ### setKs -/

@[simp] theorem setKs_st (m : Memory) : (setKs s m).st = s.st := rfl
@[simp] theorem setKs_tmp (m : Memory) : (setKs s m).tmp = s.tmp := rfl
@[simp] theorem setKs_inBuf (m : Memory) : (setKs s m).inBuf = s.inBuf := rfl
@[simp] theorem setKs_inLen (m : Memory) : (setKs s m).inLen = s.inLen := rfl
@[simp] theorem setKs_out (m : Memory) : (setKs s m).out = s.out := rfl
@[simp] theorem setKs_ks (m : Memory) : (setKs s m).ks = m := rfl
@[simp] theorem setKs_nk (m : Memory) : (setKs s m).nk = s.nk := rfl
@[simp] theorem setKs_keyValid (m : Memory) : (setKs s m).keyValid = s.keyValid := rfl
@[simp] theorem setKs_busy (m : Memory) : (setKs s m).busy = s.busy := rfl
@[simp] theorem setKs_cmd (m : Memory) : (setKs s m).cmd = s.cmd := rfl
@[simp] theorem setKs_upc (m : Memory) : (setKs s m).upc = s.upc := rfl
@[simp] theorem setKs_status (m : Memory) : (setKs s m).status = s.status := rfl
@[simp] theorem setKs_cmdPort (m : Memory) : (setKs s m).cmdPort = s.cmdPort := rfl
@[simp] theorem setKs_responses (m : Memory) : (setKs s m).responses = s.responses := rfl
@[simp] theorem setKs_resetReq (m : Memory) : (setKs s m).resetReq = s.resetReq := rfl
@[simp] theorem setKs_resetCount (m : Memory) : (setKs s m).resetCount = s.resetCount := rfl

/-! ### advanceUpc -/

@[simp] theorem advanceUpc_st : (advanceUpc s).st = s.st := rfl
@[simp] theorem advanceUpc_tmp : (advanceUpc s).tmp = s.tmp := rfl
@[simp] theorem advanceUpc_inBuf : (advanceUpc s).inBuf = s.inBuf := rfl
@[simp] theorem advanceUpc_inLen : (advanceUpc s).inLen = s.inLen := rfl
@[simp] theorem advanceUpc_out : (advanceUpc s).out = s.out := rfl
@[simp] theorem advanceUpc_ks : (advanceUpc s).ks = s.ks := rfl
@[simp] theorem advanceUpc_nk : (advanceUpc s).nk = s.nk := rfl
@[simp] theorem advanceUpc_keyValid : (advanceUpc s).keyValid = s.keyValid := rfl
@[simp] theorem advanceUpc_busy : (advanceUpc s).busy = s.busy := rfl
@[simp] theorem advanceUpc_cmd : (advanceUpc s).cmd = s.cmd := rfl
@[simp] theorem advanceUpc_upc : (advanceUpc s).upc = s.upc + 1 := rfl
@[simp] theorem advanceUpc_status : (advanceUpc s).status = s.status := rfl
@[simp] theorem advanceUpc_cmdPort : (advanceUpc s).cmdPort = s.cmdPort := rfl
@[simp] theorem advanceUpc_responses : (advanceUpc s).responses = s.responses := rfl
@[simp] theorem advanceUpc_resetReq : (advanceUpc s).resetReq = s.resetReq := rfl
@[simp] theorem advanceUpc_resetCount : (advanceUpc s).resetCount = s.resetCount := rfl

/-! ### setCmdPort -/

@[simp] theorem setCmdPort_st (rest : List Byte) : (setCmdPort s rest).st = s.st := rfl
@[simp] theorem setCmdPort_tmp (rest : List Byte) : (setCmdPort s rest).tmp = s.tmp := rfl
@[simp] theorem setCmdPort_inBuf (rest : List Byte) : (setCmdPort s rest).inBuf = s.inBuf := rfl
@[simp] theorem setCmdPort_inLen (rest : List Byte) : (setCmdPort s rest).inLen = s.inLen := rfl
@[simp] theorem setCmdPort_out (rest : List Byte) : (setCmdPort s rest).out = s.out := rfl
@[simp] theorem setCmdPort_ks (rest : List Byte) : (setCmdPort s rest).ks = s.ks := rfl
@[simp] theorem setCmdPort_nk (rest : List Byte) : (setCmdPort s rest).nk = s.nk := rfl
@[simp] theorem setCmdPort_keyValid (rest : List Byte) : (setCmdPort s rest).keyValid = s.keyValid := rfl
@[simp] theorem setCmdPort_busy (rest : List Byte) : (setCmdPort s rest).busy = s.busy := rfl
@[simp] theorem setCmdPort_cmd (rest : List Byte) : (setCmdPort s rest).cmd = s.cmd := rfl
@[simp] theorem setCmdPort_upc (rest : List Byte) : (setCmdPort s rest).upc = s.upc := rfl
@[simp] theorem setCmdPort_status (rest : List Byte) : (setCmdPort s rest).status = s.status := rfl
@[simp] theorem setCmdPort_cmdPort (rest : List Byte) : (setCmdPort s rest).cmdPort = rest := rfl
@[simp] theorem setCmdPort_responses (rest : List Byte) : (setCmdPort s rest).responses = s.responses := rfl
@[simp] theorem setCmdPort_resetReq (rest : List Byte) : (setCmdPort s rest).resetReq = s.resetReq := rfl
@[simp] theorem setCmdPort_resetCount (rest : List Byte) : (setCmdPort s rest).resetCount = s.resetCount := rfl

/-! ### emit -/

@[simp] theorem emit_st (r : Response) : (emit s r).st = s.st := rfl
@[simp] theorem emit_tmp (r : Response) : (emit s r).tmp = s.tmp := rfl
@[simp] theorem emit_inBuf (r : Response) : (emit s r).inBuf = s.inBuf := rfl
@[simp] theorem emit_inLen (r : Response) : (emit s r).inLen = s.inLen := rfl
@[simp] theorem emit_out (r : Response) : (emit s r).out = s.out := rfl
@[simp] theorem emit_ks (r : Response) : (emit s r).ks = s.ks := rfl
@[simp] theorem emit_nk (r : Response) : (emit s r).nk = s.nk := rfl
@[simp] theorem emit_keyValid (r : Response) : (emit s r).keyValid = s.keyValid := rfl
@[simp] theorem emit_busy (r : Response) : (emit s r).busy = s.busy := rfl
@[simp] theorem emit_cmd (r : Response) : (emit s r).cmd = s.cmd := rfl
@[simp] theorem emit_upc (r : Response) : (emit s r).upc = s.upc := rfl
@[simp] theorem emit_status (r : Response) : (emit s r).status = s.status := rfl
@[simp] theorem emit_cmdPort (r : Response) : (emit s r).cmdPort = s.cmdPort := rfl
@[simp] theorem emit_responses (r : Response) : (emit s r).responses = s.responses ++ [r] := rfl
@[simp] theorem emit_resetReq (r : Response) : (emit s r).resetReq = s.resetReq := rfl
@[simp] theorem emit_resetCount (r : Response) : (emit s r).resetCount = s.resetCount := rfl

/-! ### raiseError -/

@[simp] theorem raiseError_st (e : ErrorName) : (raiseError e s).st = s.st := rfl
@[simp] theorem raiseError_tmp (e : ErrorName) : (raiseError e s).tmp = s.tmp := rfl
@[simp] theorem raiseError_inBuf (e : ErrorName) : (raiseError e s).inBuf = s.inBuf := rfl
@[simp] theorem raiseError_inLen (e : ErrorName) : (raiseError e s).inLen = s.inLen := rfl
@[simp] theorem raiseError_out (e : ErrorName) : (raiseError e s).out = s.out := rfl
@[simp] theorem raiseError_ks (e : ErrorName) : (raiseError e s).ks = s.ks := rfl
@[simp] theorem raiseError_nk (e : ErrorName) : (raiseError e s).nk = s.nk := rfl
@[simp] theorem raiseError_keyValid (e : ErrorName) : (raiseError e s).keyValid = s.keyValid := rfl
@[simp] theorem raiseError_busy (e : ErrorName) : (raiseError e s).busy = s.busy := rfl
@[simp] theorem raiseError_cmd (e : ErrorName) : (raiseError e s).cmd = s.cmd := rfl
@[simp] theorem raiseError_upc (e : ErrorName) : (raiseError e s).upc = s.upc := rfl
@[simp] theorem raiseError_status (e : ErrorName) : (raiseError e s).status = errorCode e := rfl
@[simp] theorem raiseError_cmdPort (e : ErrorName) : (raiseError e s).cmdPort = s.cmdPort := rfl
@[simp] theorem raiseError_responses (e : ErrorName) : (raiseError e s).responses = s.responses ++ [⟨errorCode e, 0, []⟩] := rfl
@[simp] theorem raiseError_resetReq (e : ErrorName) : (raiseError e s).resetReq = s.resetReq := rfl
@[simp] theorem raiseError_resetCount (e : ErrorName) : (raiseError e s).resetCount = s.resetCount := rfl

/-! ### hostSend -/

@[simp] theorem hostSend_st (bytes : List Byte) : (hostSend bytes s).st = s.st := rfl
@[simp] theorem hostSend_tmp (bytes : List Byte) : (hostSend bytes s).tmp = s.tmp := rfl
@[simp] theorem hostSend_inBuf (bytes : List Byte) : (hostSend bytes s).inBuf = s.inBuf := rfl
@[simp] theorem hostSend_inLen (bytes : List Byte) : (hostSend bytes s).inLen = s.inLen := rfl
@[simp] theorem hostSend_out (bytes : List Byte) : (hostSend bytes s).out = s.out := rfl
@[simp] theorem hostSend_ks (bytes : List Byte) : (hostSend bytes s).ks = s.ks := rfl
@[simp] theorem hostSend_nk (bytes : List Byte) : (hostSend bytes s).nk = s.nk := rfl
@[simp] theorem hostSend_keyValid (bytes : List Byte) : (hostSend bytes s).keyValid = s.keyValid := rfl
@[simp] theorem hostSend_busy (bytes : List Byte) : (hostSend bytes s).busy = s.busy := rfl
@[simp] theorem hostSend_cmd (bytes : List Byte) : (hostSend bytes s).cmd = s.cmd := rfl
@[simp] theorem hostSend_upc (bytes : List Byte) : (hostSend bytes s).upc = s.upc := rfl
@[simp] theorem hostSend_status (bytes : List Byte) : (hostSend bytes s).status = s.status := rfl
@[simp] theorem hostSend_cmdPort (bytes : List Byte) : (hostSend bytes s).cmdPort = s.cmdPort ++ bytes := rfl
@[simp] theorem hostSend_responses (bytes : List Byte) : (hostSend bytes s).responses = s.responses := rfl
@[simp] theorem hostSend_resetReq (bytes : List Byte) : (hostSend bytes s).resetReq = s.resetReq := rfl
@[simp] theorem hostSend_resetCount (bytes : List Byte) : (hostSend bytes s).resetCount = s.resetCount := rfl

/-! ### hostAssertReset -/

@[simp] theorem hostAssertReset_st : (hostAssertReset s).st = s.st := rfl
@[simp] theorem hostAssertReset_tmp : (hostAssertReset s).tmp = s.tmp := rfl
@[simp] theorem hostAssertReset_inBuf : (hostAssertReset s).inBuf = s.inBuf := rfl
@[simp] theorem hostAssertReset_inLen : (hostAssertReset s).inLen = s.inLen := rfl
@[simp] theorem hostAssertReset_out : (hostAssertReset s).out = s.out := rfl
@[simp] theorem hostAssertReset_ks : (hostAssertReset s).ks = s.ks := rfl
@[simp] theorem hostAssertReset_nk : (hostAssertReset s).nk = s.nk := rfl
@[simp] theorem hostAssertReset_keyValid : (hostAssertReset s).keyValid = s.keyValid := rfl
@[simp] theorem hostAssertReset_busy : (hostAssertReset s).busy = s.busy := rfl
@[simp] theorem hostAssertReset_cmd : (hostAssertReset s).cmd = s.cmd := rfl
@[simp] theorem hostAssertReset_upc : (hostAssertReset s).upc = s.upc := rfl
@[simp] theorem hostAssertReset_status : (hostAssertReset s).status = s.status := rfl
@[simp] theorem hostAssertReset_cmdPort : (hostAssertReset s).cmdPort = s.cmdPort := rfl
@[simp] theorem hostAssertReset_responses : (hostAssertReset s).responses = s.responses := rfl
@[simp] theorem hostAssertReset_resetReq : (hostAssertReset s).resetReq = true := rfl
@[simp] theorem hostAssertReset_resetCount : (hostAssertReset s).resetCount = s.resetCount := rfl

/-! ### beginCommand -/

@[simp] theorem beginCommand_st (op len : Byte) (p : List Byte) : (beginCommand op len p s).st = s.st := by simp only [beginCommand, acceptFlags]
@[simp] theorem beginCommand_tmp (op len : Byte) (p : List Byte) : (beginCommand op len p s).tmp = s.tmp := by simp only [beginCommand, acceptFlags]
@[simp] theorem beginCommand_inBuf (op len : Byte) (p : List Byte) : (beginCommand op len p s).inBuf = latch s.inBuf p := by simp only [beginCommand, acceptFlags]
@[simp] theorem beginCommand_inLen (op len : Byte) (p : List Byte) : (beginCommand op len p s).inLen = len.setWidth 6 := by simp only [beginCommand, acceptFlags]
@[simp] theorem beginCommand_out (op len : Byte) (p : List Byte) : (beginCommand op len p s).out = s.out := by simp only [beginCommand, acceptFlags]
@[simp] theorem beginCommand_ks (op len : Byte) (p : List Byte) : (beginCommand op len p s).ks = s.ks := by simp only [beginCommand, acceptFlags]
@[simp] theorem beginCommand_nk (op len : Byte) (p : List Byte) : (beginCommand op len p s).nk = (if op = 0x01 then nkOfLen len else s.nk) := by simp only [beginCommand, acceptFlags]
@[simp] theorem beginCommand_keyValid (op len : Byte) (p : List Byte) : (beginCommand op len p s).keyValid = (if op = 0x01 then false else s.keyValid) := by simp only [beginCommand, acceptFlags]
@[simp] theorem beginCommand_busy (op len : Byte) (p : List Byte) : (beginCommand op len p s).busy = true := by simp only [beginCommand, acceptFlags]
@[simp] theorem beginCommand_cmd (op len : Byte) (p : List Byte) : (beginCommand op len p s).cmd = op := by simp only [beginCommand, acceptFlags]
@[simp] theorem beginCommand_upc (op len : Byte) (p : List Byte) : (beginCommand op len p s).upc = 0 := by simp only [beginCommand, acceptFlags]
@[simp] theorem beginCommand_status (op len : Byte) (p : List Byte) : (beginCommand op len p s).status = s.status := by simp only [beginCommand, acceptFlags]
@[simp] theorem beginCommand_cmdPort (op len : Byte) (p : List Byte) : (beginCommand op len p s).cmdPort = s.cmdPort := by simp only [beginCommand, acceptFlags]
@[simp] theorem beginCommand_responses (op len : Byte) (p : List Byte) : (beginCommand op len p s).responses = s.responses := by simp only [beginCommand, acceptFlags]
@[simp] theorem beginCommand_resetReq (op len : Byte) (p : List Byte) : (beginCommand op len p s).resetReq = s.resetReq := by simp only [beginCommand, acceptFlags]
@[simp] theorem beginCommand_resetCount (op len : Byte) (p : List Byte) : (beginCommand op len p s).resetCount = s.resetCount := by simp only [beginCommand, acceptFlags]

/-! ### complete -/

@[simp] theorem complete_st : (complete s).st = s.st := rfl
@[simp] theorem complete_tmp : (complete s).tmp = s.tmp := rfl
@[simp] theorem complete_inBuf : (complete s).inBuf = s.inBuf := rfl
@[simp] theorem complete_inLen : (complete s).inLen = s.inLen := rfl
@[simp] theorem complete_out : (complete s).out = s.out := rfl
@[simp] theorem complete_ks : (complete s).ks = s.ks := rfl
@[simp] theorem complete_nk : (complete s).nk = s.nk := rfl
@[simp] theorem complete_keyValid : (complete s).keyValid = (if s.cmd = 0x01 then true else s.keyValid) := rfl
@[simp] theorem complete_busy : (complete s).busy = false := rfl
@[simp] theorem complete_cmd : (complete s).cmd = s.cmd := rfl
@[simp] theorem complete_upc : (complete s).upc = s.upc := rfl
@[simp] theorem complete_status : (complete s).status = 0x00 := rfl
@[simp] theorem complete_cmdPort : (complete s).cmdPort = s.cmdPort := rfl
@[simp] theorem complete_responses : (complete s).responses = s.responses ++ [if s.cmd = 0x01 then ⟨0x00, 0, []⟩ else ⟨0x00, 16, s.out.toList⟩] := rfl
@[simp] theorem complete_resetReq : (complete s).resetReq = s.resetReq := rfl
@[simp] theorem complete_resetCount : (complete s).resetCount = s.resetCount := rfl

/-! ### takeReset -/

@[simp] theorem takeReset_inLen : (takeReset s).inLen = 0 := by simp only [takeReset]
@[simp] theorem takeReset_ks : (takeReset s).ks = resetKs s.resetCount := by simp only [takeReset]
@[simp] theorem takeReset_nk : (takeReset s).nk = 0 := by simp only [takeReset]
@[simp] theorem takeReset_keyValid : (takeReset s).keyValid = false := by simp only [takeReset]
@[simp] theorem takeReset_busy : (takeReset s).busy = false := by simp only [takeReset]
@[simp] theorem takeReset_cmd : (takeReset s).cmd = 0 := by simp only [takeReset]
@[simp] theorem takeReset_upc : (takeReset s).upc = 0 := by simp only [takeReset]
@[simp] theorem takeReset_status : (takeReset s).status = 0 := by simp only [takeReset]
@[simp] theorem takeReset_cmdPort : (takeReset s).cmdPort = [] := by simp only [takeReset]
@[simp] theorem takeReset_responses : (takeReset s).responses = s.responses := by simp only [takeReset]
@[simp] theorem takeReset_resetReq : (takeReset s).resetReq = false := by simp only [takeReset]
@[simp] theorem takeReset_resetCount : (takeReset s).resetCount = s.resetCount + 1 := by simp only [takeReset]

end Sys2Proof.Machine
end

