-- ==== Sys2Proof/Laws/Exec.lean ====
section
/-! SUPPORT. What the meanings do, once for each shared operation: the operand ranges, KSW and RK, the temporary word of KXSTEP,
the micro-ops with an operand, the block commands, and what every micro-op leaves alone. -/

namespace Sys2Proof.Machine

/-! ### Key sizes -/

theorem nkLegal_cases {nk : BitVec 4} (h : nkLegal nk = true) : nk = 4 ∨ nk = 6 ∨ nk = 8 := by
  simpa [nkLegal, or_assoc] using h

theorem nkLegal_toNat {nk : BitVec 4} (h : nkLegal nk = true) : nk.toNat = 4 ∨ nk.toNat = 6 ∨ nk.toNat = 8 := by
  rcases nkLegal_cases h with rfl | rfl | rfl <;> decide

theorem keyLenLegal_iff {len : Byte} : keyLenLegal len = true ↔ len = 16 ∨ len = 24 ∨ len = 32 := by
  simp [keyLenLegal, or_assoc]

theorem blockLenLegal_iff {len : Byte} : blockLenLegal len = true ↔ len = 16 := by simp [blockLenLegal]

theorem frameWellFormed_iff {len : Byte} {p : List Byte} : frameWellFormed len p = true ↔ p.length = len.toNat := by
  simp [frameWellFormed]

/-! ### Words and round keys of KS -/

theorem ksw_eq {m : Memory} {i : Nat} (h : i < 60) :
    ksw m i = some (Vector.ofFn fun k : Fin 4 => readByte m (4 * i + k)) :=
  memRead_eq (by simp only [Config.ksBytes]; omega)

theorem roundKey_eq {m : Memory} {r : Nat} (h : r ≤ 14) :
    roundKey m r = some (Vector.ofFn fun j : Fin 16 => readByte m (16 * r + j)) :=
  memRead_eq (by simp only [Config.ksBytes]; omega)

/-! ### KXSTEP's temporary word -/

theorem rcon_isSome {j : Nat} (h1 : 1 ≤ j) (h2 : j ≤ 10) : ∃ rc, rcon j = some rc := by
  obtain ⟨k, rfl⟩ : ∃ k, j = k + 1 := ⟨j - 1, by omega⟩
  have hk : k < rconTable.length := by simp only [rconTable, List.length_cons, List.length_nil]; omega
  exact ⟨rconTable[k], by simp [rcon, hk]⟩

/-- Within the range of KXSTEP, i / Nk is an index of RCON (42_key_expansion.md R130). -/
theorem rcon_index_range {nk i : Nat} (hnk : nk = 4 ∨ nk = 6 ∨ nk = 8) (h1 : nk ≤ i) (h2 : i < 4 * (nk + 7)) :
    1 ≤ i / nk ∧ i / nk ≤ 10 := by
  rcases hnk with rfl | rfl | rfl <;> omega

/-- KXSTEP always has a temporary word. -/
theorem kxTemp_isSome {nk i : Nat} (w : Word) (hnk : nk = 4 ∨ nk = 6 ∨ nk = 8) (h1 : nk ≤ i)
    (h2 : i < 4 * (nk + 7)) : ∃ t, kxTemp nk i w = some t := by
  obtain ⟨hlo, hhi⟩ := rcon_index_range hnk h1 h2
  obtain ⟨rc, hrc⟩ := rcon_isSome hlo hhi
  unfold kxTemp
  split_ifs
  · exact ⟨_, by rw [hrc]; rfl⟩
  · exact ⟨_, rfl⟩
  · exact ⟨_, rfl⟩

/-- The result of KXSTEP i within its range. -/
theorem kxStepResult_eq {nk i : Nat} (m : Memory) (hnk : nk = 4 ∨ nk = 6 ∨ nk = 8) (h1 : nk ≤ i)
    (h2 : i < 4 * (nk + 7)) :
    ∃ prev old t m', ksw m (i - 1) = some prev ∧ ksw m (i - nk) = some old ∧ kxTemp nk i prev = some t ∧
      memWrite m (4 * i) (xorBytes old t) = some m' ∧ kxStepResult nk i m = some (t, m') := by
  have h60 : i < 60 := by omega
  obtain ⟨t, ht⟩ := kxTemp_isSome (Vector.ofFn fun k : Fin 4 => readByte m (4 * (i - 1) + k)) hnk h1 h2
  have hw := memWrite_eq (m := m) (a := 4 * i)
    (xorBytes (Vector.ofFn fun k : Fin 4 => readByte m (4 * (i - nk) + k)) t)
    (by simp only [Config.ksBytes]; omega)
  refine ⟨_, _, t, _, ksw_eq (by omega), ksw_eq (by omega), ht, hw, ?_⟩
  simp [kxStepResult, ksw_eq (show i - 1 < 60 by omega), ksw_eq (show i - nk < 60 by omega), ht, hw]

/-- KXSTEP answers with its range: whatever it answers, the words it read are in KS and the write is to word i. -/
theorem kxStepResult_spec {nk i : Nat} {m m' : Memory} {t : Word} (h : kxStepResult nk i m = some (t, m')) :
    ∃ prev old, ksw m (i - 1) = some prev ∧ ksw m (i - nk) = some old ∧ kxTemp nk i prev = some t ∧
      memWrite m (4 * i) (xorBytes old t) = some m' := by
  simp only [kxStepResult, Option.bind_eq_bind, Option.bind_eq_some_iff, Option.pure_def, Option.some.injEq,
    Prod.mk.injEq] at h
  obtain ⟨prev, hp, t', ht, old, ho, m'', hm, rfl, rfl⟩ := h
  exact ⟨prev, old, hp, ho, ht, hm⟩

/-! ### The micro-ops with an operand -/

theorem microOpLegal_addroundkey {nk : BitVec 4} {r : BitVec 6} :
    microOpLegal nk (.addroundkey r) = true ↔ r.toNat ≤ nk.toNat + 6 ∧ r.toNat ≤ 14 := by
  simp only [microOpLegal, Bool.and_eq_true, decide_eq_true_eq]
  rfl

theorem microOpLegal_kxinit {nk : BitVec 4} {i : BitVec 6} :
    microOpLegal nk (.kxinit i) = true ↔ i.toNat < nk.toNat ∧ i.toNat < 8 := by
  simp [microOpLegal]

theorem microOpLegal_kxstep {nk : BitVec 4} {i : BitVec 6} :
    microOpLegal nk (.kxstep i) = true ↔ nkLegal nk = true ∧ nk.toNat ≤ i.toNat ∧ i.toNat < 4 * (nk.toNat + 7) := by
  simp only [microOpLegal, Bool.and_eq_true, decide_eq_true_eq, and_assoc]
  rfl

theorem execAddroundkey_next {s t : State} {r : BitVec 6} :
    execAddroundkey r s = .next t ↔
      microOpLegal s.nk (.addroundkey r) = true ∧
        t = setSt s (xorBytes s.st (Vector.ofFn fun j : Fin 16 => readByte s.ks (16 * r.toNat + j))) := by
  unfold execAddroundkey
  split_ifs with h
  · rw [roundKey_eq (microOpLegal_addroundkey.1 h).2]
    simp [h, eq_comm]
  · simp [h]

theorem execKxinit_next {s t : State} {i : BitVec 6} :
    execKxinit i s = .next t ↔
      microOpLegal s.nk (.kxinit i) = true ∧
        ∃ m, memWrite s.ks (4 * i.toNat) (inWord s.inBuf i.toNat) = some m ∧ t = setKs s m := by
  unfold execKxinit
  split_ifs with h
  · split <;> rename_i hm <;> simp [h, hm, eq_comm]
  · simp [h]

theorem execKxstep_next {s t : State} {i : BitVec 6} :
    execKxstep i s = .next t ↔
      microOpLegal s.nk (.kxstep i) = true ∧
        ∃ w m, kxStepResult s.nk.toNat i.toNat s.ks = some (w, m) ∧ t = setKs (setTmp s w) m := by
  unfold execKxstep
  split_ifs with h
  · split <;> rename_i hm <;> simp [h, hm, eq_comm]
  · simp [h]

/-- A legal micro-op has its effect: it does not stop. -/
theorem exec_microOp_next {s : State} {i : Instr} (h : microOpLegal s.nk i = true) : ∃ t, exec i s = .next t := by
  cases i with
  | keyload _ _ | encrypt _ _ | decrypt _ _ => simp [microOpLegal] at h
  | addroundkey r => exact ⟨_, execAddroundkey_next.2 ⟨h, rfl⟩⟩
  | kxinit i =>
    have hb := microOpLegal_kxinit.1 h
    exact ⟨_, execKxinit_next.2 ⟨h, _, memWrite_eq _ (by simp only [Config.ksBytes]; omega), rfl⟩⟩
  | kxstep i =>
    have hb := microOpLegal_kxstep.1 h
    obtain ⟨_, _, t, m', -, -, -, -, hr⟩ := kxStepResult_eq s.ks (nkLegal_toNat hb.1) hb.2.1 hb.2.2
    exact ⟨_, execKxstep_next.2 ⟨h, t, m', hr, rfl⟩⟩
  | _ => exact ⟨_, rfl⟩

/-- What every micro-op leaves alone: the control registers, the flags, IN and the streams. -/
theorem exec_microOp_keeps {s t : State} {i : Instr} (h : microOpLegal s.nk i = true) (ht : exec i s = .next t) :
    t = { s with st := t.st, tmp := t.tmp, out := t.out, ks := t.ks } := by
  cases i with
  | keyload _ _ | encrypt _ _ | decrypt _ _ => simp [microOpLegal] at h
  | addroundkey r => obtain ⟨-, rfl⟩ := execAddroundkey_next.1 ht; rfl
  | kxinit i => obtain ⟨-, m, -, rfl⟩ := execKxinit_next.1 ht; rfl
  | kxstep i => obtain ⟨-, w, m, -, rfl⟩ := execKxstep_next.1 ht; rfl
  | _ => obtain rfl := Host.Outcome.next.inj ht; rfl

/-- KS changes only under KXINIT and KXSTEP, and stays canonical (20_memory.md R57). -/
theorem exec_microOp_ks {s t : State} {i : Instr} (h : microOpLegal s.nk i = true) (ht : exec i s = .next t) :
    (Memory.wf s.ks = true → Memory.wf t.ks = true) ∧
      ((∀ w, i ≠ .kxinit w) → (∀ w, i ≠ .kxstep w) → t.ks = s.ks) := by
  cases i with
  | keyload _ _ | encrypt _ _ | decrypt _ _ => simp [microOpLegal] at h
  | addroundkey r => obtain ⟨-, rfl⟩ := execAddroundkey_next.1 ht; exact ⟨id, fun _ _ => rfl⟩
  | kxinit i =>
    obtain ⟨-, m, hm, rfl⟩ := execKxinit_next.1 ht
    exact ⟨fun hw => ((memWrite_spec hm).2.2 hw).1, fun hne => absurd rfl (hne i)⟩
  | kxstep i =>
    obtain ⟨-, w, m, hr, rfl⟩ := execKxstep_next.1 ht
    obtain ⟨_, _, _, _, _, hm⟩ := kxStepResult_spec hr
    exact ⟨fun hw => ((memWrite_spec hm).2.2 hw).1, fun _ hne => absurd rfl (hne i)⟩
  | storeout => obtain rfl := Host.Outcome.next.inj ht; simp
  | _ => obtain rfl := Host.Outcome.next.inj ht; simp

/-! ### The commands -/

/-- All that a command's ACCEPT can answer, for a frame of LEN bytes: the command begins, or one error is raised. -/
theorem acceptBlock_cases {s : State} {op len : Byte} {p : List Byte} (hp : p.length = len.toNat) :
    (s.keyValid = false ∧ acceptBlock op len p s = .next (raiseError .noKey s)) ∨
    (s.keyValid = true ∧ len = 16 ∧ acceptBlock op len p s = .next (beginCommand op len p s)) ∨
    (s.keyValid = true ∧ len ≠ 16 ∧ acceptBlock op len p s = .next (raiseError .invalidBlockLength s)) := by
  unfold acceptBlock
  rw [if_pos (frameWellFormed_iff.2 hp)]
  cases hk : s.keyValid with
  | false => exact .inl ⟨rfl, rfl⟩
  | true =>
    by_cases hl : len = 16
    · exact .inr (.inl ⟨rfl, hl, by simp [blockLenLegal_iff.2 hl]⟩)
    · exact .inr (.inr ⟨rfl, hl, by rw [if_neg (by simp), if_neg (mt blockLenLegal_iff.1 hl)]⟩)

theorem execKeyload_cases {s : State} {len : Byte} {p : List Byte} (hp : p.length = len.toNat) :
    (keyLenLegal len = true ∧ execKeyload len p s = .next (beginCommand 0x01 len p s)) ∨
    (keyLenLegal len = false ∧ execKeyload len p s = .next (raiseError .invalidKeyLength s)) := by
  unfold execKeyload
  rw [if_pos (frameWellFormed_iff.2 hp)]
  cases hk : keyLenLegal len <;> simp

end Sys2Proof.Machine
end

