-- ==== Sys2Proof/Laws/PerInstr.lean ====
section
/-! SUPPORT. Per instruction: where its opcode and its operand stand in its encoding (30_encoding.md R71, R73, R78, R80). -/

namespace Sys2Proof.Laws.Opcode

/-- The opcode the tables of 30_encoding.md give an instruction: OP of a command (R73), UOP of a micro-op (R80). -/
def tableCode : Instr → Nat
  | .keyload _ _ => 0x01
  | .encrypt _ _ => 0x02
  | .decrypt _ _ => 0x03
  | .addroundkey _ => 0x1
  | .subbytes => 0x2
  | .shiftrows => 0x3
  | .mixcolumns => 0x4
  | .invsubbytes => 0x6
  | .invshiftrows => 0x7
  | .invmixcolumns => 0x8
  | .loadstate => 0x9
  | .storeout => 0xA
  | .kxinit _ => 0xB
  | .kxstep _ => 0xC

/-- The operand that ARG holds: 0 for a micro-op without one (R79). A command has no ARG. -/
def argOf : Instr → BitVec 6
  | .addroundkey r => r
  | .kxinit i => i
  | .kxstep i => i
  | .subbytes | .shiftrows | .mixcolumns | .invsubbytes | .invshiftrows | .invmixcolumns => 0
  | .loadstate | .storeout => 0
  | .keyload _ _ | .encrypt _ _ | .decrypt _ _ => 0

/-- A well-formed instruction is encoded with the code of its table row: a command's frame is OP, then LEN, then LEN payload
bytes; a micro-op's word has UOP in bits 9..6 and its operand in bits 5..0. -/
def Statement (i : Instr) : Prop :=
  i.wellFormed = true →
    match encode i with
    | .frame bytes => ∃ op len p, bytes = op :: len :: p ∧ op.toNat = tableCode i ∧ p.length = len.toNat
    | .microOp mw => (uopField mw).toNat = tableCode i ∧ argField mw = argOf i

theorem frame_code {i : Instr} {op len : Byte} {p : List Byte} (he : encode i = .frame (op :: len :: p))
    (hc : op.toNat = tableCode i) (hw : i.wellFormed = frameWellFormed len p) : Statement i := by
  intro h
  rw [hw] at h
  rw [he]
  exact ⟨op, len, p, rfl, hc, by simpa [frameWellFormed] using h⟩

theorem fields_of_word : ∀ (uop : BitVec 4) (arg : BitVec 6), uopField (uop ++ arg) = uop ∧ argField (uop ++ arg) = arg := by
  decide

theorem microOp_code {i : Instr} {uop : BitVec 4} {arg : BitVec 6} (he : encode i = .microOp (uop ++ arg))
    (hc : uop.toNat = tableCode i) (ha : arg = argOf i) : Statement i := by
  intro _
  obtain ⟨hu, hv⟩ := fields_of_word uop arg
  rw [he]
  exact ⟨by rw [hu, hc], by rw [hv, ha]⟩

theorem keyload (len : Byte) (p : List Byte) : Statement (.keyload len p) := frame_code rfl rfl rfl
theorem encrypt (len : Byte) (p : List Byte) : Statement (.encrypt len p) := frame_code rfl rfl rfl
theorem decrypt (len : Byte) (p : List Byte) : Statement (.decrypt len p) := frame_code rfl rfl rfl
theorem addroundkey (r : BitVec 6) : Statement (.addroundkey r) := microOp_code rfl rfl rfl
theorem subbytes : Statement .subbytes := microOp_code rfl rfl rfl
theorem shiftrows : Statement .shiftrows := microOp_code rfl rfl rfl
theorem mixcolumns : Statement .mixcolumns := microOp_code rfl rfl rfl
theorem invsubbytes : Statement .invsubbytes := microOp_code rfl rfl rfl
theorem invshiftrows : Statement .invshiftrows := microOp_code rfl rfl rfl
theorem invmixcolumns : Statement .invmixcolumns := microOp_code rfl rfl rfl
theorem loadstate : Statement .loadstate := microOp_code rfl rfl rfl
theorem storeout : Statement .storeout := microOp_code rfl rfl rfl
theorem kxinit (i : BitVec 6) : Statement (.kxinit i) := microOp_code rfl rfl rfl
theorem kxstep (i : BitVec 6) : Statement (.kxstep i) := microOp_code rfl rfl rfl

end Sys2Proof.Laws.Opcode
end

