-- ==== Sys2Proof/Laws/Step.lean ====
section
/-! SUPPORT. Prog and the step: every micro-op ORCH issues is legal and is decoded from its word as itself, and one inversion
lemma says everything a step can do. -/

namespace Sys2Proof.Machine

/-! ### Frames -/

/-- What a decoded command is: one of the three, with a whole payload, in front of the rest. -/
theorem decodeFrame_command {bytes rest : List Byte} {i : Instr} (h : decodeFrame bytes = .command i rest) :
    ∃ len p, p.length = len.toNat ∧
      ((i = .keyload len p ∧ bytes = 0x01 :: len :: (p ++ rest)) ∨
       (i = .encrypt len p ∧ bytes = 0x02 :: len :: (p ++ rest)) ∨
       (i = .decrypt len p ∧ bytes = 0x03 :: len :: (p ++ rest))) := by
  match bytes with
  | [] | [_] => simp [decodeFrame] at h
  | op :: len :: bytes =>
    simp only [decodeFrame] at h
    split_ifs at h with hl
    refine ⟨len, bytes.take len.toNat, by simp; omega, ?_⟩
    unfold commandOf at h
    split_ifs at h with h1 h2 h3
    · obtain ⟨rfl, rfl⟩ := FrameDecode.command.inj h
      simp [h1]
    · obtain ⟨rfl, rfl⟩ := FrameDecode.command.inj h
      simp [h2]
    · obtain ⟨rfl, rfl⟩ := FrameDecode.command.inj h
      simp [h3]

/-- A whole frame in front of any bytes decodes to its command or is reserved (30_encoding.md R85). -/
theorem decodeFrame_frame {op len : Byte} {p rest : List Byte} (hp : p.length = len.toNat) :
    decodeFrame (op :: len :: (p ++ rest)) =
      match commandOf op len p with
      | some i => .command i rest
      | none => .reservedOpcode op len rest := by
  have hlt : ¬(p ++ rest).length < len.toNat := by simp; omega
  simp only [decodeFrame, hlt, if_false, List.take_left' hp, List.drop_left' hp]
  all_goals cases commandOf op len p <;> rfl

/-! ### Prog -/

theorem prog_length {cmd : Byte} {nk : BitVec 4} {p : List Instr} (h : prog cmd nk = some p) :
    nkLegal nk = true ∧
      ((cmd = 0x01 ∧ p = progKeyload nk.toNat ∧ p.length = 4 * (nk.toNat + 7)) ∨
       (cmd = 0x02 ∧ p = progEncrypt (nrOf nk) ∧ p.length = 4 * nrOf nk + 2) ∨
       (cmd = 0x03 ∧ p = progDecrypt (nrOf nk) ∧ p.length = 4 * nrOf nk + 2)) := by
  unfold prog at h
  split_ifs at h with hn h1 h2 h3
  · obtain rfl := Option.some.inj h
    refine ⟨hn, .inl ⟨h1, rfl, ?_⟩⟩
    rcases nkLegal_cases hn with rfl | rfl | rfl <;> rfl
  · obtain rfl := Option.some.inj h
    refine ⟨hn, .inr (.inl ⟨h2, rfl, ?_⟩)⟩
    rcases nkLegal_cases hn with rfl | rfl | rfl <;> rfl
  · obtain rfl := Option.some.inj h
    refine ⟨hn, .inr (.inr ⟨h3, rfl, ?_⟩)⟩
    rcases nkLegal_cases hn with rfl | rfl | rfl <;> rfl

/-- The KXSTEPs of Prog(KEYLOAD): one for each word from Nk to 4(Nr+1)-1 (42_key_expansion.md R125). -/
theorem kxstep_mem_progKeyload {nk : Nat} (hnk : nk ≤ 8) (a : BitVec 6) :
    .kxstep a ∈ progKeyload nk ↔ nk ≤ a.toNat ∧ a.toNat < 4 * (nk + 7) := by
  simp only [progKeyload, List.mem_append, List.mem_map, reduceCtorEq, and_false, exists_false, false_or,
    List.mem_range'_1, Instr.kxstep.injEq]
  constructor
  · rintro ⟨n, hn, rfl⟩
    rw [BitVec.toNat_ofNat, Nat.mod_eq_of_lt (by omega)]
    omega
  · exact fun h => ⟨a.toNat, by omega, by simp⟩

/-- Does the word of a micro-op decode to it under an NK? -/
def issues (nk : BitVec 4) (i : Instr) : Bool :=
  match encode i with
  | .microOp mw => match decodeMicroOp nk mw with
    | .ok j => j == i && microOpLegal nk i
    | .error _ => false
  | .frame _ => false

theorem prog_issues_all : ∀ nk ∈ [4#4, 6#4, 8#4], ∀ cmd ∈ [1#8, 2#8, 3#8],
    ∃ p, prog cmd nk = some p ∧ p.all (issues nk) = true := by
  decide

/-- Every micro-op of Prog is legal, and its word decodes to it (30_encoding.md R81: ORCH never issues a reserved word). -/
theorem prog_issues {cmd : Byte} {nk : BitVec 4} {p : List Instr} {i : Instr} (h : prog cmd nk = some p)
    (hi : i ∈ p) :
    microOpLegal nk i = true ∧ ∃ mw, encode i = .microOp mw ∧ decodeMicroOp nk mw = .ok i := by
  obtain ⟨hn, hc⟩ := prog_length h
  have hnk : nk ∈ [4#4, 6#4, 8#4] := by rcases nkLegal_cases hn with rfl | rfl | rfl <;> decide
  have hcmd : cmd ∈ [1#8, 2#8, 3#8] := by rcases hc with ⟨rfl, -⟩ | ⟨rfl, -⟩ | ⟨rfl, -⟩ <;> decide
  obtain ⟨p', hp', hall⟩ := prog_issues_all nk hnk cmd hcmd
  obtain rfl := Option.some.inj (h.symm.trans hp')
  have hi := List.all_eq_true.1 hall i hi
  unfold issues at hi
  split at hi
  · rename_i mw hmw
    split at hi
    · rename_i j hj
      simp only [Bool.and_eq_true, beq_iff_eq] at hi
      exact ⟨hi.2, mw, hmw, hi.1 ▸ hj⟩
    · simp at hi
  · simp at hi

/-! ### The step -/

theorem nextAction_reset {s : State} (h : s.resetReq = true) : nextAction s = .reset := by simp [nextAction, h]

theorem nextAction_busy {s : State} (h : s.resetReq = false) (hb : s.busy = true) : nextAction s = busyAction s := by
  simp [nextAction, h, hb]

theorem nextAction_idle {s : State} (h : s.resetReq = false) (hb : s.busy = false) : nextAction s = idleAction s := by
  simp [nextAction, h, hb]

/-- With BUSY = 1 and UPC inside Prog, the action is EXEC of the micro-op there. -/
theorem busyAction_exec {s : State} {p : List Instr} {i : Instr} (hp : prog s.cmd s.nk = some p)
    (hi : p[s.upc.toNat]? = some i) : busyAction s = .exec i := by
  obtain ⟨-, mw, hmw, hd⟩ := prog_issues hp (List.mem_of_getElem? hi)
  simp [busyAction, hp, hi, hmw, hd]

theorem busyAction_complete {s : State} {p : List Instr} (hp : prog s.cmd s.nk = some p)
    (hu : s.upc.toNat = p.length) : busyAction s = .complete := by
  have hn : p[s.upc.toNat]? = none := by simp [hu]
  simp [busyAction, hp, hu]

theorem step_exec {s : State} {p : List Instr} {i : Instr} (hr : s.resetReq = false) (hb : s.busy = true)
    (hp : prog s.cmd s.nk = some p) (hi : p[s.upc.toNat]? = some i) : step s = finishExec (exec i s) := by
  simp [step, nextAction_busy hr hb, busyAction_exec hp hi]

theorem step_complete {s : State} {p : List Instr} (hr : s.resetReq = false) (hb : s.busy = true)
    (hp : prog s.cmd s.nk = some p) (hu : s.upc.toNat = p.length) : step s = .next (complete s) := by
  simp [step, nextAction_busy hr hb, busyAction_complete hp hu]

/-- Everything a step that answers a next state can do. -/
theorem step_cases {s t : State} (h : step s = .next t) :
    (s.resetReq = true ∧ t = takeReset s) ∨
    (s.resetReq = false ∧ s.busy = false ∧ decodeFrame s.cmdPort = .incomplete ∧ t = s) ∨
    (s.resetReq = false ∧ s.busy = false ∧ ∃ op len rest, decodeFrame s.cmdPort = .reservedOpcode op len rest ∧
      t = raiseError .illegalCommand (setCmdPort s rest)) ∨
    (s.resetReq = false ∧ s.busy = false ∧ ∃ i rest, decodeFrame s.cmdPort = .command i rest ∧
      exec i (setCmdPort s rest) = .next t) ∨
    (s.resetReq = false ∧ s.busy = true ∧ ∃ p i u, prog s.cmd s.nk = some p ∧ p[s.upc.toNat]? = some i ∧
      microOpLegal s.nk i = true ∧ exec i s = .next u ∧ t = advanceUpc u) ∨
    (s.resetReq = false ∧ s.busy = true ∧ ∃ p, prog s.cmd s.nk = some p ∧ s.upc.toNat = p.length ∧ t = complete s) := by
  cases hr : s.resetReq with
  | true =>
    rw [step, nextAction_reset hr] at h
    exact .inl ⟨rfl, (Host.Outcome.next.inj h).symm⟩
  | false =>
    cases hb : s.busy with
    | false =>
      rw [step, nextAction_idle hr hb, idleAction] at h
      cases hd : decodeFrame s.cmdPort with
      | incomplete =>
        rw [hd] at h
        exact .inr (.inl ⟨rfl, rfl, rfl, (Host.Outcome.next.inj h).symm⟩)
      | reservedOpcode op len rest =>
        rw [hd] at h
        exact .inr (.inr (.inl ⟨rfl, rfl, op, len, rest, rfl, (Host.Outcome.next.inj h).symm⟩))
      | command i rest =>
        rw [hd] at h
        exact .inr (.inr (.inr (.inl ⟨rfl, rfl, i, rest, rfl, h⟩)))
    | true =>
      cases hp : prog s.cmd s.nk with
      | none => simp [step, nextAction_busy hr hb, busyAction, hp] at h
      | some p =>
        cases hi : p[s.upc.toNat]? with
        | some i =>
          rw [step_exec hr hb hp hi] at h
          cases hu : exec i s with
          | next u =>
            rw [hu] at h
            exact .inr (.inr (.inr (.inr (.inl ⟨rfl, rfl, p, i, u, rfl, hi,
              (prog_issues hp (List.mem_of_getElem? hi)).1, hu, (Host.Outcome.next.inj h).symm⟩))))
          | fault f => rw [hu] at h; simp [finishExec] at h
          | refused r => rw [hu] at h; simp [finishExec] at h
        | none =>
          by_cases hl : s.upc.toNat = p.length
          · rw [step_complete hr hb hp hl] at h
            exact .inr (.inr (.inr (.inr (.inr ⟨rfl, rfl, p, rfl, hl, (Host.Outcome.next.inj h).symm⟩))))
          · simp [step, nextAction_busy hr hb, busyAction, hp, hi, hl] at h

end Sys2Proof.Machine
end

