-- ==== Sys2Proof/Laws/Run.lean ====
section
/-! SUPPORT. Runs of many steps: the fields a micro-op keeps, what an ACCEPT that answers can be, a run as one step after
another, and the run of a Prog as an induction over its micro-ops. -/

namespace Sys2Proof.Machine

/-- A micro-op keeps the control registers, IN and the streams: `exec_microOp_keeps`, field by field. -/
theorem exec_microOp_fields {s u : State} {i : Instr} (h : microOpLegal s.nk i = true) (ht : exec i s = .next u) :
    u.inBuf = s.inBuf ∧ u.inLen = s.inLen ∧ u.nk = s.nk ∧ u.keyValid = s.keyValid ∧ u.busy = s.busy ∧
      u.cmd = s.cmd ∧ u.upc = s.upc ∧ u.status = s.status ∧ u.cmdPort = s.cmdPort ∧ u.responses = s.responses ∧
      u.resetReq = s.resetReq ∧ u.resetCount = s.resetCount := by
  have hk := exec_microOp_keeps h ht
  rw [hk]
  simp

/-- The three ways an ACCEPT of a decoded command ends: a KEYLOAD begins, a block command begins, an error is raised. -/
theorem accept_cases {s t : State} {i : Instr} {rest : List Byte} (hd : decodeFrame s.cmdPort = .command i rest)
    (ht : exec i (setCmdPort s rest) = .next t) :
    (∃ len p, p.length = len.toNat ∧ (len = 16 ∨ len = 24 ∨ len = 32) ∧ i = .keyload len p ∧
      t = beginCommand 0x01 len p (setCmdPort s rest)) ∨
    (∃ op p, (op = 0x02 ∨ op = 0x03) ∧ p.length = 16 ∧ s.keyValid = true ∧
      t = beginCommand op 16 p (setCmdPort s rest)) ∨
    (∃ e, e ≠ ErrorName.notImplemented ∧ t = raiseError e (setCmdPort s rest)) := by
  have block : ∀ (op len : Byte) (p : List Byte), op = 0x02 ∨ op = 0x03 → p.length = len.toNat →
      acceptBlock op len p (setCmdPort s rest) = .next t →
      (∃ op p, (op = 0x02 ∨ op = 0x03) ∧ p.length = 16 ∧ s.keyValid = true ∧
        t = beginCommand op 16 p (setCmdPort s rest)) ∨
      (∃ e, e ≠ ErrorName.notImplemented ∧ t = raiseError e (setCmdPort s rest)) := by
    intro op len p hop hp h
    rcases acceptBlock_cases (s := setCmdPort s rest) (op := op) hp with ⟨-, h'⟩ | ⟨hk, rfl, h'⟩ | ⟨-, -, h'⟩ <;>
      rw [h'] at h <;> obtain rfl := Host.Outcome.next.inj h
    · exact .inr ⟨.noKey, by simp, rfl⟩
    · exact .inl ⟨op, p, hop, by simpa using hp, hk, rfl⟩
    · exact .inr ⟨.invalidBlockLength, by simp, rfl⟩
  obtain ⟨len, p, hp, ⟨rfl, -⟩ | ⟨rfl, -⟩ | ⟨rfl, -⟩⟩ := decodeFrame_command hd
  · rcases execKeyload_cases (s := setCmdPort s rest) hp with ⟨hl, h⟩ | ⟨-, h⟩ <;>
      rw [exec, h] at ht <;> obtain rfl := Host.Outcome.next.inj ht
    · exact .inl ⟨len, p, hp, keyLenLegal_iff.1 hl, rfl, rfl⟩
    · exact .inr (.inr ⟨.invalidKeyLength, by simp, rfl⟩)
  · exact .inr (block 0x02 len p (.inl rfl) hp ht)
  · exact .inr (block 0x03 len p (.inr rfl) hp ht)

/-! ### Runs -/

theorem run_zero (s : State) : run 0 s = .next s := rfl

/-- The first step of a run. -/
theorem run_step_first (n : Nat) (s : State) :
    run (n + 1) s = match step s with
      | .next t => run n t
      | .fault f => .fault f
      | .refused r => .refused r := by
  have h : Host.Core.run core (n + 1) s = _ := Host.Core.run.eq_2 core s n
  cases hs : step s with
  | next t =>
    rw [show core.step s = .next t from hs] at h
    exact h
  | fault f =>
    rw [show core.step s = .fault f from hs] at h
    exact h
  | refused r =>
    rw [show core.step s = .refused r from hs] at h
    exact h

theorem run_one {s t : State} (h : step s = .next t) : run 1 s = .next t := by
  rw [run_step_first, h]
  rfl

/-- A run of m + n steps is a run of n steps from where m steps lead. -/
theorem run_add {m n : Nat} {s t : State} (h : run m s = .next t) : run (m + n) s = run n t := by
  induction m generalizing s with
  | zero => rw [Nat.zero_add, Host.Outcome.next.inj h]
  | succ m ih =>
    rw [Nat.add_right_comm, run_step_first]
    rw [run_step_first] at h
    cases hs : step s with
    | next u => rw [hs] at h; exact ih h
    | fault f => rw [hs] at h; cases h
    | refused r => rw [hs] at h; cases h

theorem run_succ {n : Nat} {s t u : State} (h : run n s = .next t) (ht : step t = .next u) :
    run (n + 1) s = .next u := by
  rw [run_add h, run_one ht]

/-- The first n micro-ops of Prog, from UPC = 0: they run, only ST, TMP, OUT and KS can have changed, UPC is n, and any
property that each micro-op carries on holds. -/
theorem run_prog {s : State} {p : List Instr} (hb : s.busy = true) (hr : s.resetReq = false) (hu : s.upc = 0)
    (hp : prog s.cmd s.nk = some p) (D : Nat → State → Prop) (h0 : D 0 s)
    (hD : ∀ n i u u', p[n]? = some i → microOpLegal s.nk i = true →
      u = { s with st := u.st, tmp := u.tmp, out := u.out, ks := u.ks, upc := BitVec.ofNat 6 n } → D n u →
      exec i u = .next u' → D (n + 1) (advanceUpc u')) :
    ∀ n, n ≤ p.length → ∃ u, run n s = .next u ∧
      u = { s with st := u.st, tmp := u.tmp, out := u.out, ks := u.ks, upc := BitVec.ofNat 6 n } ∧ D n u := by
  intro n
  induction n with
  | zero =>
    intro _
    refine ⟨s, rfl, ?_, h0⟩
    rw [show BitVec.ofNat 6 0 = s.upc from hu.symm]
  | succ n ih =>
    intro hn
    obtain ⟨u, hrun, hk, hd⟩ := ih (by omega)
    have hi : p[n]? = some p[n] := by simp
    have hlen : p.length ≤ 60 := by
      obtain ⟨hl, hc⟩ := prog_length hp
      have := nkLegal_toNat hl
      simp only [nrOf] at hc
      omega
    have hupc : u.upc.toNat = n := by rw [hk]; simp; omega
    have hleg := (prog_issues hp (List.mem_of_getElem? hi)).1
    have hnk : u.nk = s.nk := by rw [hk]
    obtain ⟨u', hu'⟩ := exec_microOp_next (s := u) (i := p[n]) (by rw [hnk]; exact hleg)
    have hstep : step u = .next (advanceUpc u') := by
      rw [step_exec (p := p) (i := p[n]) (by rw [hk]; exact hr) (by rw [hk]; exact hb) (by rw [hk]; exact hp)
        (by rw [hupc]; exact hi), hu']
      rfl
    refine ⟨advanceUpc u', run_succ hrun hstep, ?_, hD n p[n] u u' hi hleg hk hd hu'⟩
    have hk' := exec_microOp_keeps (s := u) (by rw [hnk]; exact hleg) hu'
    rw [hk', hk]
    simp only [advanceUpc]
    congr 1
    apply BitVec.eq_of_toNat_eq
    simp

end Sys2Proof.Machine
end

