-- ==== Sys2Proof/Tests/Slice0.lean ====
section
/-! SUPPORT. Tests: ill-formed terms, hand-written words of every instruction, single steps with the results of
spec/95_test_vectors.md, and for every statement with hypotheses a state and operands that meet them (`test_<Name>_witness`). -/

namespace Sys2Proof.Tests

open Sys2Proof.Machine

/-! ### Helpers -/

/-- The `n` bytes of a number as spec/95_test_vectors.md prints them, byte 0 first. -/
def hexBytes (n v : Nat) : List Byte := (List.range n).map fun k => BitVec.ofNat 8 (v >>> (8 * (n - 1 - k)))

/-- A byte sequence of `n` bytes, byte 0 first. -/
def hexVec (n v : Nat) : Vector Byte n := Vector.ofFn fun k : Fin n => BitVec.ofNat 8 (v >>> (8 * (n - 1 - k)))

/-- KS with the given bytes from address `a` on. -/
def ksAt (a n v : Nat) (m : Memory) : Memory := writeBytes m a (hexBytes n v)

/-- The state a step or an instruction answers, if it answers one. -/
def nextOf : Host.Outcome State Fault Refusal → Option State
  | .next t => some t
  | _ => none

/-- A key of `4 nk` bytes is loaded, as far as NK and KEY_VALID say. -/
def keyed (nk : BitVec 4) : State := { State.reset with nk := nk, keyValid := true }

/-- An engine at a place of a Prog. -/
def busyAt (cmd : Byte) (nk : BitVec 4) (upc : BitVec 6) (kv : Bool) (len : BitVec 6) : State :=
  { State.reset with busy := true, cmd := cmd, nk := nk, upc := upc, keyValid := kv, inLen := len }

/-- What the host sees of a state: STATUS and the response stream as bytes. -/
def seen (s : State) : Byte × List (List Byte) := (s.status, s.responses.map Response.bytes)

/-- The first step after the host has sent these bytes. -/
def stepOn (s : State) (bytes : List Byte) : Option State := nextOf (step (hostSend bytes s))

/-! ### Well-formedness: an ill-formed term for each check -/

theorem test_illformed_keyload : (Instr.keyload 16 (hexBytes 15 0)).wellFormed = false := by decide
theorem test_illformed_encrypt : (Instr.encrypt 16 (hexBytes 17 0)).wellFormed = false := by decide
theorem test_illformed_decrypt : (Instr.decrypt 0 (hexBytes 1 0)).wellFormed = false := by decide
theorem test_illformed_addroundkey : (Instr.addroundkey 15).wellFormed = false := by decide
theorem test_illformed_kxinit : (Instr.kxinit 8).wellFormed = false := by decide
theorem test_illformed_kxstep :
    (Instr.kxstep 3).wellFormed = false ∧ (Instr.kxstep 60).wellFormed = false := by decide
theorem test_wellformed_edges :
    (Instr.keyload 255 (hexBytes 255 0)).wellFormed = true ∧ (Instr.addroundkey 14).wellFormed = true ∧
    (Instr.kxinit 7).wellFormed = true ∧ (Instr.kxstep 4).wellFormed = true ∧
    (Instr.kxstep 59).wellFormed = true := by decide +kernel

/-! ### Decoding, from the tables of 30_encoding.md (R71, R73, R78, R80), UOP in bits 9..6, ARG in bits 5..0 -/

theorem test_decode_keyload : decodeFrame [0x01, 0x02, 0xaa, 0xbb, 0x02] = .command (.keyload 2 [0xaa, 0xbb]) [0x02] := by
  decide
theorem test_decode_encrypt : decodeFrame [0x02, 0x01, 0x77] = .command (.encrypt 1 [0x77]) [] := by decide
theorem test_decode_decrypt : decodeFrame [0x03, 0x00, 0x01] = .command (.decrypt 0 []) [0x01] := by decide
theorem test_decode_partial : decodeFrame [0x02, 0x02, 0x77] = .incomplete := by decide
theorem test_decode_addroundkey : decodeMicroOp 8 0b0001001110#10 = .ok (.addroundkey 14) := by decide
theorem test_decode_subbytes : decodeMicroOp 4 0b0010000000#10 = .ok .subbytes := by decide
theorem test_decode_shiftrows : decodeMicroOp 4 0b0011000000#10 = .ok .shiftrows := by decide
theorem test_decode_mixcolumns : decodeMicroOp 4 0b0100000000#10 = .ok .mixcolumns := by decide
theorem test_decode_invsubbytes : decodeMicroOp 4 0b0110000000#10 = .ok .invsubbytes := by decide
theorem test_decode_invshiftrows : decodeMicroOp 4 0b0111000000#10 = .ok .invshiftrows := by decide
theorem test_decode_invmixcolumns : decodeMicroOp 4 0b1000000000#10 = .ok .invmixcolumns := by decide
theorem test_decode_loadstate : decodeMicroOp 4 0b1001000000#10 = .ok .loadstate := by decide
theorem test_decode_storeout : decodeMicroOp 4 0b1010000000#10 = .ok .storeout := by decide
theorem test_decode_kxinit : decodeMicroOp 6 0b1011000101#10 = .ok (.kxinit 5) := by decide
theorem test_decode_kxstep : decodeMicroOp 4 0b1100101011#10 = .ok (.kxstep 43) := by decide

/-- The words of the opcode table: a command's OP is bits 15..8; a micro-op's word is read as one although it has 16 bits. -/
theorem test_table_words :
    decodeTableWord 16 0x0102 = some (.keyload 2 [0, 0]) ∧ decodeTableWord 16 0x0100 = some .mixcolumns ∧
    decodeTableWord 10 0x33b = some (.kxstep 59) ∧ decodeTableWord 16 0x0300 = some (.decrypt 0 []) ∧
    decodeTableWord 16 0x0400 = none := by decide

/-- `step` fetches what was placed: SUBBYTES of the State of zeros, and KEYLOAD with LEN 16 of a key of zeros (R140, R161). -/
theorem test_fetch_words :
    (nextOf (step (State.reset.withFetchWord 10 0x080))).map (·.st) = some (Vector.replicate 16 0x63) ∧
    (nextOf (step (State.reset.withFetchWord 16 0x0110))).map (fun t => (t.busy, t.cmd, t.nk, t.cmdPort)) =
      some (true, 0x01, 4, []) := by decide +kernel

/-! ### The micro-ops, one step each (95_test_vectors.md sections 2.3, 2.4 and P5) -/

theorem test_subbytes :
    (nextOf (exec .subbytes { State.reset with st := hexVec 16 0x000102030405060708090a0b0c0d0e0f })).map (·.st) =
      some (hexVec 16 0x637c777bf26b6fc53001672bfed7ab76) := by decide +kernel

theorem test_invsubbytes :
    (nextOf (exec .invsubbytes { State.reset with st := hexVec 16 0x63cab7040953d051cd60e0e7ba70e18c })).map (·.st) =
      some (hexVec 16 0x00102030405060708090a0b0c0d0e0f0) := by decide +kernel

theorem test_shiftrows :
    (nextOf (exec .shiftrows { State.reset with st := hexVec 16 0x000102030405060708090a0b0c0d0e0f })).map (·.st) =
      some (hexVec 16 0x00050a0f04090e03080d02070c01060b) := by decide +kernel

theorem test_invshiftrows :
    (nextOf (exec .invshiftrows { State.reset with st := hexVec 16 0x000102030405060708090a0b0c0d0e0f })).map (·.st) =
      some (hexVec 16 0x000d0a0704010e0b0805020f0c090603) := by decide +kernel

theorem test_mixcolumns :
    (nextOf (exec .mixcolumns { State.reset with st := hexVec 16 0xd4d4d4d52d26314c0100000000000001 })).map (·.st) =
      some (hexVec 16 0xd5d5d7d64d7ebdf80201010301010302) := by decide +kernel

theorem test_invmixcolumns :
    (nextOf (exec .invmixcolumns { State.reset with st := hexVec 16 0x01000000000100000000010000000001 })).map (·.st) =
      some (hexVec 16 0x0e090d0b0b0e090d0d0b0e09090d0b0e) := by decide +kernel

theorem test_addroundkey_0 :
    (nextOf (exec (.addroundkey 0) { keyed 4 with
      st := hexVec 16 0x00112233445566778899aabbccddeeff
      ks := ksAt 0 16 0x000102030405060708090a0b0c0d0e0f [] })).map (·.st) =
      some (hexVec 16 0x00102030405060708090a0b0c0d0e0f0) := by decide +kernel

theorem test_addroundkey_10 :
    (nextOf (exec (.addroundkey 10) { keyed 4 with ks := ksAt 160 16 0x13111d7fe3944a17f307a78b4d2b30c5 [] })).map (·.st) =
      some (hexVec 16 0x13111d7fe3944a17f307a78b4d2b30c5) := by decide +kernel

theorem test_loadstate :
    (nextOf (exec .loadstate { State.reset with
      inBuf := latch State.reset.inBuf (hexBytes 16 0x00112233445566778899aabbccddeeff) })).map
        (fun t => (t.st[0], t.st[1], t.st[4], t.st[15])) = some (0x00, 0x11, 0x44, 0xff) := by decide +kernel

theorem test_storeout :
    (nextOf (exec .storeout { State.reset with st := hexVec 16 0x69c4e0d86a7b0430d8cdb78070b4c55a })).map (·.out) =
      some (hexVec 16 0x69c4e0d86a7b0430d8cdb78070b4c55a) := by decide +kernel

theorem test_kxinit :
    (nextOf (exec (.kxinit 3) { State.reset with
      nk := 4, inBuf := latch State.reset.inBuf (hexBytes 16 0x000102030405060708090a0b0c0d0e0f) })).map
        (fun t => (ksw t.ks 3, ksw t.ks 2)) = some (some (hexVec 4 0x0c0d0e0f), some (hexVec 4 0)) := by decide +kernel

/-- Rows V10 i = 40 (first branch, RCON[10]) and V12 i = 12 (second branch). -/
theorem test_kxstep_substitutes :
    (nextOf (exec (.kxstep 40) { State.reset with
      nk := 4, ks := ksAt 144 4 0x549932d1 (ksAt 156 4 0xbe2c974e []) })).map (fun t => (t.tmp, ksw t.ks 40)) =
      some (hexVec 4 0x47882fae, some (hexVec 4 0x13111d7f)) ∧
    (nextOf (exec (.kxstep 12) { State.reset with
      nk := 8, ks := ksAt 16 4 0x10111213 (ksAt 44 4 0xa572c09c []) })).map (fun t => (t.tmp, ksw t.ks 12)) =
      some (hexVec 4 0x0640bade, some (hexVec 4 0x1651a8cd)) := by decide +kernel

/-- Rows V11 i = 10 (i mod 6 = 4, no substitution) and V12 i = 59 (the last word). -/
theorem test_kxstep_plain :
    (nextOf (exec (.kxstep 10) { State.reset with
      nk := 6, ks := ksAt 16 4 0x10111213 (ksAt 36 4 0x5847f0fa []) })).map (fun t => (t.tmp, ksw t.ks 10)) =
      some (hexVec 4 0x5847f0fa, some (hexVec 4 0x4856e2e9)) ∧
    (nextOf (exec (.kxstep 59) { State.reset with
      nk := 8, ks := ksAt 204 4 0x5a721c0a (ksAt 232 4 0x371ac23c []) })).map (fun t => (t.tmp, ksw t.ks 59)) =
      some (hexVec 4 0x371ac23c, some (hexVec 4 0x6d68de36)) := by decide +kernel

/-! ### The commands, one ACCEPT step each (95_test_vectors.md section 4) -/

/-- E3 and E4: keys of 15 and of 17 bytes. -/
theorem test_keyload_lengths :
    (stepOn State.reset ([0x01, 0x0f] ++ hexBytes 15 0x000102030405060708090a0b0c0d0e)).map seen = some (0x01, [[0x01, 0x00]]) ∧
    (stepOn (keyed 4) ([0x01, 0x11] ++ hexBytes 17 0x000102030405060708090a0b0c0d0e0f10)).map (fun t => (seen t, t.keyValid)) =
      some ((0x01, [[0x01, 0x00]]), true) := by decide +kernel

/-- E2: a key of 32 bytes begins. -/
theorem test_keyload_begins :
    (stepOn State.reset ([0x01, 0x20] ++ hexBytes 32 0x000102030405060708090a0b0c0d0e0f101112131415161718191a1b1c1d1e1f)).map
      (fun t => (t.busy, t.nk, t.inLen, t.inBuf[31], t.cmdPort)) = some (true, 8, 32, 0x1f, []) := by decide +kernel

/-- E10 and E12: no key, whatever the length. -/
theorem test_encrypt_nokey :
    (stepOn State.reset ([0x02, 0x10] ++ hexBytes 16 0)).map seen = some (0x04, [[0x04, 0x00]]) ∧
    (stepOn State.reset ([0x02, 0x0f] ++ hexBytes 15 0)).map seen = some (0x04, [[0x04, 0x00]]) := by decide +kernel

/-- E6 and E19: blocks of 17 and of 32 bytes. -/
theorem test_encrypt_lengths :
    (stepOn (keyed 4) ([0x02, 0x11] ++ hexBytes 17 0)).map seen = some (0x02, [[0x02, 0x00]]) ∧
    (stepOn (keyed 4) ([0x02, 0x20] ++ hexBytes 32 0)).map seen = some (0x02, [[0x02, 0x00]]) := by decide +kernel

/-- E8 and E11: no payload, and no key. -/
theorem test_decrypt_errors :
    (stepOn (keyed 4) [0x03, 0x00]).map seen = some (0x02, [[0x02, 0x00]]) ∧
    (stepOn State.reset ([0x03, 0x10] ++ hexBytes 16 0)).map seen = some (0x04, [[0x04, 0x00]]) := by decide +kernel

/-- E17: the command begins. -/
theorem test_decrypt_begins :
    (stepOn (keyed 4) ([0x03, 0x10] ++ hexBytes 16 0x69c4e0d86a7b0430d8cdb78070b4c55a)).map
      (fun t => (t.busy, t.cmd, t.inLen, t.inBuf[0], t.keyValid)) = some (true, 0x03, 16, 0x69, true) := by decide +kernel

/-- E13 to E15: reserved opcodes; the payload is consumed. -/
theorem test_reserved_opcodes :
    (stepOn State.reset [0x00, 0x00]).map seen = some (0x05, [[0x05, 0x00]]) ∧
    (stepOn (keyed 4) ([0x04, 0x10] ++ hexBytes 16 0)).map seen = some (0x05, [[0x05, 0x00]]) ∧
    (stepOn State.reset [0xff, 0x03, 0xaa, 0xbb, 0xcc]).map (fun t => (seen t, t.cmdPort)) =
      some ((0x05, [[0x05, 0x00]]), []) := by decide +kernel

/-- P6 (b): a reset in mid-command clears the control registers and answers nothing (R220, R221). -/
theorem test_reset_midway :
    (nextOf (step (hostAssertReset { busyAt 0x02 4 9 true 16 with cmdPort := [0x02] }))).map
      (fun t => (t.busy, t.keyValid, t.nk, t.upc, t.cmdPort)) = some (false, false, 0, 0, []) ∧
    (nextOf (step (hostAssertReset (busyAt 0x02 4 9 true 16)))).map (·.responses) = some [] := by decide +kernel

/-! ### Invariant states -/

/-- A busy state that meets the invariant, from its parts. -/
theorem coreInv_busyAt (cmd : Byte) (nk : BitVec 4) (upc : BitVec 6) (kv : Bool) (len : BitVec 6) (p : List Instr)
    (hn : nkLegal nk = true) (hl : len.toNat ≤ 32) (hu : upc.toNat ≤ 60) (hp : prog cmd nk = some p)
    (hup : upc.toNat ≤ p.length) (h1 : cmd = 0x01 → kv = false ∧ len.toNat = 4 * nk.toNat)
    (h2 : cmd ≠ 0x01 → kv = true ∧ len.toNat = 16) : CoreInv (busyAt cmd nk upc kv len) :=
  ⟨rfl, .inr hn, hl, hu, .inl rfl, fun _ => hn, fun _ => ⟨⟨p, hp, hup⟩, h1, h2⟩, by simp [busyAt, State.reset]⟩

/-- KEYLOAD of a 16-byte key about to issue KXINIT 0, and about to complete; ENCRYPT about to complete. -/
theorem test_coreInv_busy :
    CoreInv (busyAt 0x01 4 0 false 16) ∧ CoreInv (busyAt 0x01 8 60 false 32) ∧ CoreInv (busyAt 0x02 8 58 true 16) :=
  ⟨coreInv_busyAt _ _ _ _ _ (progKeyload 4) (by decide) (by decide) (by decide) rfl (by decide) (by decide) (by decide),
   coreInv_busyAt _ _ _ _ _ (progKeyload 8) (by decide) (by decide) (by decide) rfl (by decide) (by decide) (by decide),
   coreInv_busyAt _ _ _ _ _ (progEncrypt 14) (by decide) (by decide) (by decide) rfl (by decide) (by decide) (by decide)⟩

theorem test_coreInv_reset : CoreInv State.reset :=
  ⟨rfl, .inl rfl, by decide, by decide, .inl rfl, by decide, by simp [State.reset], by simp [State.reset]⟩

theorem test_coreInv_keyed : CoreInv (keyed 4) :=
  ⟨rfl, .inr rfl, by decide, by decide, .inl rfl, by decide, by simp [keyed, State.reset], by simp [keyed, State.reset]⟩

theorem test_scheduleInv_busy : ScheduleInv (busyAt 0x01 4 0 false 16) :=
  ⟨by simp [busyAt], by simp [busyAt], by simp [busyAt]⟩

/-! ### Witnesses: the hypotheses of the statements can be met -/

theorem test_GmulIsFieldMultiplication_witness : (0x53 : Byte) ≠ 0x00 ∧ gmul 0x53 0xca = 0x01 := by decide

theorem test_GinvIsTheInverse_witness :
    (0x02 : Byte) ≠ 0x00 ∧ gmul 0x02 0x8d = 0x01 ∧ ginv 0x02 = 0x8d ∧ ginv 0x8d = 0x02 := by decide

theorem test_AffineIsTheBitEquation_witness :
    affine 0xca = 0xed ∧ 0 < 8 ∧ (affine 0xca).getLsbD 0 = true ∧ 7 < 8 ∧ (affine 0xca).getLsbD 7 = true := by decide

theorem test_RconIsRepeatedXtime_witness :
    rcon 2 = (rcon 1).map xtime ∧ rcon 10 = (rcon 9).map xtime ∧ rcon 0 = none ∧ rcon 11 = none := by decide

theorem test_RotwordAndSubwordOnBytes_witness :
    (∀ k (_ : k < 4), (hexVec 4 0xc6c6c6c6)[k] = (hexVec 4 0xc6c6c6c6)[0]) ∧ (rotWord (hexVec 4 0x00010203))[3] = 0x00 := by
  decide +kernel

theorem test_MemWriteThenMemRead_witness :
    Memory.wf (ksAt 0 4 0x01000203 []) = true ∧ 236 + 4 ≤ 240 ∧ 224 + 16 ≤ 240 ∧
    (memWrite (ksAt 0 4 0x01000203 []) 236 (hexVec 4 0xaa00bbcc)).map (fun m => (memRead m 236 4, memRead m 0 4)) =
      some (some (hexVec 4 0xaa00bbcc), some (hexVec 4 0x01000203)) := by decide +kernel

theorem test_RoundKeyIsFourWords_witness :
    (14 : Nat) ≤ 14 ∧ (roundKey (ksAt 236 4 0x6d68de36 []) 14).map (·[15]) = some 0x36 ∧
    (ksw (ksAt 236 4 0x6d68de36 []) 59).map (·[3]) = some 0x36 := by decide +kernel

/-- A command and a micro-op at the top of their operands; KXSTEP 59 is legal under NK = 8 only. -/
theorem test_DecodeOfEncodeIsIdentity_witness :
    (Instr.keyload 32 (hexBytes 32 1)).wellFormed = true ∧ (Instr.encrypt 0 []).wellFormed = true ∧
    (Instr.decrypt 255 (hexBytes 255 1)).wellFormed = true ∧ (Instr.kxstep 59).wellFormed = true ∧
    microOpLegal 8 (.kxstep 59) = true ∧ microOpLegal 4 (.kxstep 59) = false ∧
    Instr.subbytes.wellFormed = true ∧ microOpLegal 4 .subbytes = true := by decide +kernel

theorem test_EncodeOfDecodeIsIdentity_witness :
    nkLegal 8 = true ∧ decodeMicroOp 8 0x33b#10 = .ok (.kxstep 59) ∧
    decodeFrame [0x03, 0x01, 0x07, 0x09] = .command (.decrypt 1 [0x07]) [0x09] := by decide

/-- Each clause of R81 at its boundary: the last legal ARG and the first reserved one. -/
theorem test_ReservedMicroOpWordsRefused_witness :
    nkLegal 4 = true ∧ (prog 0x01 4).isSome = true ∧
    (decodeMicroOp 4 (0x1#4 ++ 10#6)).isOk = true ∧ (decodeMicroOp 4 (0x1#4 ++ 11#6)).isOk = false ∧
    (decodeMicroOp 4 (0xB#4 ++ 3#6)).isOk = true ∧ (decodeMicroOp 4 (0xB#4 ++ 4#6)).isOk = false ∧
    (decodeMicroOp 4 (0xC#4 ++ 3#6)).isOk = false ∧ (decodeMicroOp 4 (0xC#4 ++ 4#6)).isOk = true ∧
    (decodeMicroOp 4 (0xC#4 ++ 43#6)).isOk = true ∧ (decodeMicroOp 4 (0xC#4 ++ 44#6)).isOk = false ∧
    (decodeMicroOp 4 (0x2#4 ++ 1#6)).isOk = false ∧ (decodeMicroOp 4 (0xA#4 ++ 63#6)).isOk = false ∧
    (decodeMicroOp 4 (0x5#4 ++ 0#6)).isOk = false ∧ (decodeMicroOp 4 (0xD#4 ++ 0#6)).isOk = false := by decide

/-- A State of four equal columns. -/
theorem test_ShiftrowsRotatesRowsLeft_witness :
    ∀ r c (_ : r < 4) (_ : c < 4),
      (hexVec 16 0x01020304010203040102030401020304)[r + 4 * c] = (hexVec 16 0x01020304010203040102030401020304)[r] := by
  have h : ∀ r c : Fin 4, (hexVec 16 0x01020304010203040102030401020304)[r.val + 4 * c.val] =
      (hexVec 16 0x01020304010203040102030401020304)[r.val] := by decide +kernel
  exact fun r c hr hc => h ⟨r, hr⟩ ⟨c, hc⟩

theorem test_InvshiftrowsRotatesRowsRight_witness :
    (15 : Nat) < 16 ∧ ∀ r c (_ : r < 4) (_ : c < 4),
      (hexVec 16 0x01020304010203040102030401020304)[r + 4 * c] = (hexVec 16 0x01020304010203040102030401020304)[r] :=
  ⟨by decide, test_ShiftrowsRotatesRowsLeft_witness⟩

/-- A column of four equal bytes, column 3. -/
theorem test_MixcolumnsMultipliesByForwardMatrix_witness :
    ∀ q (_ : q < 4), (hexVec 16 0xc6c6c6c6)[4 * 3 + q] = (hexVec 16 0xc6c6c6c6)[4 * 3] := by decide +kernel

theorem test_InvmixcolumnsMultipliesByInverseMatrix_witness :
    ∀ q (_ : q < 4), (hexVec 16 0xc6c6c6c6)[4 * 3 + q] = (hexVec 16 0xc6c6c6c6)[4 * 3] := by decide +kernel

/-- The last round of the shortest and of the longest key, and a round key of zeros. -/
theorem test_AddroundkeyXorsRoundKey_witness :
    (10 : BitVec 6).toNat ≤ (keyed 4).nk.toNat + 6 ∧ (14 : BitVec 6).toNat ≤ (keyed 8).nk.toNat + 6 ∧
    (14 : BitVec 6).toNat ≤ 14 ∧ ∀ j, j < 16 → readByte (keyed 8).ks (16 * 14 + j) = 0x00 := by decide +kernel

theorem test_RoundOperationsInvert_witness :
    microOpLegal (keyed 4).nk (.addroundkey 10) = true ∧ microOpLegal (keyed 8).nk (.addroundkey 14) = true := by decide

/-- Two states that agree on byte 15 of ST, IN and the round key, on column 3 and on row 3 of ST, and nowhere else; every
micro-op of the statement runs on both. -/
theorem test_RoundOperationsActOnLanes_witness :
    let s : State := { keyed 4 with st := hexVec 16 0x00000001000000020000000307070704 }
    let s' : State := { keyed 4 with st := hexVec 16 0x11111101222222023333330307070704, ks := ksAt 0 4 0x01010101 [] }
    s.st[15] = s'.st[15] ∧ s.inBuf[15] = s'.inBuf[15] ∧ readByte s.ks 15 = readByte s'.ks 15 ∧
    (∀ q (_ : q < 4), s.st[4 * 3 + q] = s'.st[4 * 3 + q]) ∧ (∀ q (_ : q < 4), s.st[3 + 4 * q] = s'.st[3 + 4 * q]) ∧
    ∀ i ∈ [Instr.subbytes, .invsubbytes, .loadstate, .storeout, .addroundkey 0, .mixcolumns, .invmixcolumns, .shiftrows,
      .invshiftrows], (nextOf (exec i s)).isSome = true ∧ (nextOf (exec i s')).isSome = true := by decide +kernel

theorem test_KxinitCopiesKeyWord_witness :
    (7 : BitVec 6).toNat < (keyed 8).nk.toNat ∧ (0 : BitVec 6).toNat < (keyed 8).nk.toNat ∧ (keyed 8).nk.toNat ≤ 8 ∧
    Memory.wf (keyed 8).ks = true ∧ 4 * (7 : BitVec 6).toNat + 3 < 32 := by decide

/-- The three branches: i = 8 and i = 56 rotate, i = 12 substitutes, i = 59 is plain, all for Nk = 8. -/
theorem test_KxstepDerivesScheduleWord_witness :
    nkLegal (keyed 8).nk = true ∧ Memory.wf (keyed 8).ks = true ∧
    (∀ i ∈ [8#6, 12#6, 56#6, 59#6], (keyed 8).nk.toNat ≤ i.toNat ∧ i.toNat < 4 * ((keyed 8).nk.toNat + 6 + 1)) ∧
    8 % 8 = 0 ∧ 56 % 8 = 0 ∧ (12 % 8 ≠ 0 ∧ 8 > 6 ∧ 12 % 8 = 4) ∧ (59 % 8 ≠ 0 ∧ ¬(8 > 6 ∧ 59 % 8 = 4)) := by decide

/-- For each key size, the KXSTEPs with the smallest and the largest index of RCON are in Prog(KEYLOAD), and so are one that
substitutes only and the plain last one; the next multiple of Nk is not. -/
theorem test_RconIndicesOfKxstep_witness :
    (∀ n ∈ [4#4, 6#4, 8#4], nkLegal n = true ∧ (keyed n).nk = n) ∧
    (∀ a ∈ [4#6, 40#6, 43#6], .kxstep a ∈ progKeyload 4) ∧ .kxstep 44 ∉ progKeyload 4 ∧
    (∀ a ∈ [6#6, 48#6, 51#6], .kxstep a ∈ progKeyload 6) ∧ .kxstep 54 ∉ progKeyload 6 ∧
    (∀ a ∈ [8#6, 12#6, 56#6, 59#6], .kxstep a ∈ progKeyload 8) ∧ .kxstep 7 ∉ progKeyload 8 ∧
    40 / 4 = 10 ∧ 48 / 6 = 8 ∧ 56 / 8 = 7 := by decide +kernel

theorem test_IllegalTermsRefused_witness :
    (keyed 4).nk.toNat + 6 < (11 : BitVec 6).toNat ∧ (keyed 4).nk.toNat ≤ (4 : BitVec 6).toNat ∧
    (3 : BitVec 6).toNat < (keyed 4).nk.toNat ∧ 4 * ((keyed 4).nk.toNat + 6 + 1) ≤ (44 : BitVec 6).toNat ∧
    (hexBytes 15 0).length ≠ (16 : Byte).toNat := by decide

theorem test_MicroOpsChangeOnlyTheirTargets_witness :
    ∀ i ∈ [Instr.kxinit 7, .kxstep 59, .storeout, .addroundkey 14, .subbytes, .shiftrows, .mixcolumns, .invsubbytes,
      .invshiftrows, .invmixcolumns, .loadstate], (nextOf (exec i (keyed 8))).isSome = true := by decide +kernel

/-- A KEYLOAD that begins, one that fails, and block commands that do; bytes 16 to 31 of IN are above the payload. -/
theorem test_CommandsChangeOnlyControl_witness :
    (∀ i ∈ [Instr.keyload 16 (hexBytes 16 1), .keyload 15 (hexBytes 15 1), .encrypt 16 (hexBytes 16 1),
      .decrypt 15 (hexBytes 15 1)], (nextOf (exec i (keyed 4))).isSome = true) ∧
    (hexBytes 16 1).length ≤ 16 ∧ (16 : Nat) < 32 ∧ (31 : Nat) < 32 := by decide +kernel

theorem test_KeyloadBeginsOnLegalKey_witness :
    (hexBytes 16 1).length = (16 : Byte).toNat ∧ (hexBytes 24 1).length = (24 : Byte).toNat ∧
    (hexBytes 32 1).length = (32 : Byte).toNat := by decide

theorem test_BlockCommandBeginsOnLegalBlock_witness :
    (hexBytes 16 1).length = 16 ∧ (keyed 4).keyValid = true ∧
    Instr.encrypt 16 (hexBytes 16 1) = .encrypt 16 (hexBytes 16 1) ∧
    Instr.decrypt 16 (hexBytes 16 1) = .decrypt 16 (hexBytes 16 1) := by decide

theorem test_KeyloadRefusesOtherLengths_witness :
    ∀ len ∈ [0#8, 15#8, 17#8, 255#8], (hexBytes len.toNat 1).length = len.toNat ∧ len ≠ 16 ∧ len ≠ 24 ∧ len ≠ 32 := by
  decide +kernel

/-- Both clauses, with 15 bytes: no key, and a key. -/
theorem test_BlockCommandErrors_witness :
    (hexBytes 15 1).length = (15 : Byte).toNat ∧ State.reset.keyValid = false ∧ (keyed 4).keyValid = true ∧
    (15 : Byte) ≠ 16 := by decide

/-- Frames for the five outcomes: a reserved opcode, no key, a key length, a block length, a command that begins. -/
theorem test_AcceptMakesTheChecksInOrder_witness :
    ∀ f ∈ [([0x04, 0x01, 0xaa], State.reset, 0x05#8), ([0x02, 0x01, 0xaa], State.reset, 0x04#8),
      ([0x01, 0x01, 0xaa], State.reset, 0x01#8), ([0x02, 0x01, 0xaa], keyed 4, 0x02#8),
      ([0x03, 0x10] ++ hexBytes 16 1, keyed 4, 0x00#8)],
      f.2.1.busy = false ∧ f.2.1.resetReq = false ∧ (stepOn f.2.1 f.1).map (·.status) = some f.2.2 := by decide +kernel

theorem test_idle_reset : Idle State.reset := ⟨rfl, rfl⟩

theorem test_ReservedOpcodeIsIllegalCommand_witness :
    ∀ op ∈ [0x00#8, 0x04#8, 0xff#8], op ≠ 0x01 ∧ op ≠ 0x02 ∧ op ≠ 0x03 ∧
      (hostSend ([op, 0x01] ++ ([0xaa] ++ [0x02])) State.reset).cmdPort = op :: 0x01 :: ([0xaa] ++ [0x02]) := by decide

/-- The three forms of an unfinished frame; the third lacks its last byte. -/
theorem test_PartialFrameWaits_witness :
    (hostSend [] State.reset).cmdPort = [] ∧ (hostSend [0x02] State.reset).cmdPort = [0x02] ∧
    (hostSend ([0x02, 0x10] ++ hexBytes 15 1) State.reset).cmdPort = 0x02 :: 0x10 :: hexBytes 15 1 ∧
    (hexBytes 15 1).length < (0x10 : Byte).toNat := by decide

theorem test_CompleteEndsTheCommand_witness :
    (∀ s ∈ [busyAt 0x01 4 44 false 16, busyAt 0x02 4 42 true 16, busyAt 0x03 8 58 true 16],
      s.busy = true ∧ s.resetReq = false ∧ (prog s.cmd s.nk).map (·.length) = some s.upc.toNat) ∧
    (busyAt 0x01 4 44 false 16).cmd = 0x01 ∧ (busyAt 0x02 4 42 true 16).cmd ≠ 0x01 := by decide

/-- The last KXSTEP of the longest Prog runs, and a frame at the port decodes. -/
theorem test_StepRunsTheDecodedInstruction_witness :
    (prog 0x01 8).bind (·[59]?) = some (.kxstep 59) ∧ encode (.kxstep 59) = .microOp 0x33b ∧
    decodeMicroOp 8 0x33b = .ok (.kxstep 59) ∧ (nextOf (exec (.kxstep 59) (busyAt 0x01 8 59 false 32))).isSome = true ∧
    decodeFrame (hostSend [0x01, 0x00] State.reset).cmdPort = .command (.keyload 0 []) [] := by decide +kernel

theorem test_KeyloadProgIsKeyExpansion_witness :
    (8 : Nat) ≤ 8 ∧ 59 < 4 * (8 + 6 + 1) ∧ 7 < 8 ∧ ¬(8 < 8) ∧ (progKeyload 8)[7]? = some (.kxinit 7) ∧
    (progKeyload 8)[8]? = some (.kxstep 8) := by decide

/-- Rounds 1 and 9 of ten, and the shortest list. -/
theorem test_EncryptProgIsTheRoundSequence_witness :
    2 ≤ 10 ∧ 1 ≤ 1 ∧ 1 ≤ 10 - 1 ∧ 9 ≤ 10 - 1 ∧ (progEncrypt 10)[37]? = some (.addroundkey 9) ∧ 1 ≤ 2 - 1 := by decide

theorem test_DecryptProgIsEncryptReversed_witness :
    2 ≤ 14 ∧ 1 ≤ 13 ∧ 13 ≤ 14 - 1 ∧ (progDecrypt 14)[4]? = some (.addroundkey 13) ∧
    (progDecrypt 14)[52]? = some (.addroundkey 1) := by decide

/-- The five ways a step treats UPC: a reset, an EXEC, a COMPLETE, a command that begins, an error. -/
theorem test_UpcCountsByOneOrClears_witness :
    (nextOf (step (hostAssertReset (busyAt 0x02 4 9 true 16)))).map (fun t => (t.busy, t.upc)) = some (false, 0) ∧
    (nextOf (step (busyAt 0x02 4 9 true 16))).map (fun t => (t.busy, t.upc)) = some (true, 10) ∧
    (nextOf (step (busyAt 0x02 4 42 true 16))).map (fun t => (t.busy, t.upc)) = some (false, 42) ∧
    (stepOn { keyed 4 with upc := 42 } ([0x02, 0x10] ++ hexBytes 16 1)).map (fun t => (t.busy, t.upc)) = some (true, 0) ∧
    (stepOn { keyed 4 with upc := 42 } [0x02, 0x00]).map (fun t => (t.busy, t.upc)) = some (false, 42) := by decide +kernel

/-- A busy engine with a frame waiting, before an EXEC and before COMPLETE. -/
theorem test_BusyEngineLeavesThePort_witness :
    ∀ u ∈ [9#6, 42#6], (nextOf (step { busyAt 0x02 4 u true 16 with cmdPort := [0x07, 0x00] })).map (·.cmdPort) =
      some [0x07, 0x00] := by decide +kernel

/-- A step that writes KS, and the two that change NK or KEY_VALID, from states that meet the invariant. -/
theorem test_OnlyKeyloadChangesTheKey_witness :
    CoreInv { busyAt 0x01 4 0 false 16 with inBuf := latch State.reset.inBuf (hexBytes 4 1) } ∧ CoreInv (keyed 4) ∧
    CoreInv (busyAt 0x01 8 60 false 32) ∧
    ((nextOf (step { busyAt 0x01 4 0 false 16 with inBuf := latch State.reset.inBuf (hexBytes 4 1) })).map
      (fun t => t.ks == [])) = some false ∧
    ((nextOf (step (busyAt 0x01 8 60 false 32))).map (·.keyValid)) = some true := by
  refine ⟨?_, test_coreInv_keyed, test_coreInv_busy.2.1, by decide +kernel, by decide +kernel⟩
  have h := test_coreInv_busy.1
  exact ⟨h.1, h.2, h.3, h.4, h.5, h.6, h.7, h.8⟩

/-- A step that emits nothing, an error, and the answer of a block command. -/
theorem test_EveryResponseIsOneOfTheTable_witness :
    ((nextOf (step State.reset)).map (·.responses.length)) = some 0 ∧
    (stepOn State.reset [0x02, 0x00]).map seen = some (0x04, [[0x04, 0x00]]) ∧
    (nextOf (step (busyAt 0x02 4 42 true 16))).map seen = some (0x00, [0x00 :: 0x10 :: hexBytes 16 0]) := by decide +kernel

/-- Two busy states with the same control registers and different data. -/
theorem test_ControlFlowIgnoresData_witness :
    let s := busyAt 0x02 4 2 true 16
    let s' : State := { s with st := hexVec 16 7, ks := ksAt 0 4 9 [], out := hexVec 16 8, tmp := hexVec 4 1 }
    (s.busy = s'.busy ∧ s.cmd = s'.cmd ∧ s.nk = s'.nk ∧ s.upc = s'.upc ∧ s.keyValid = s'.keyValid ∧
      s.resetReq = s'.resetReq) ∧ s.busy = true ∧ (nextOf (step s)).isSome = true := by decide +kernel

theorem test_StepKeepsInvariant_witness :
    CoreInv (busyAt 0x01 4 0 false 16) ∧ (nextOf (step (busyAt 0x01 4 0 false 16))).isSome = true :=
  ⟨test_coreInv_busy.1, by decide +kernel⟩

theorem test_StepKeepsScheduleInvariant_witness :
    CoreInv (busyAt 0x01 4 0 false 16) ∧ ScheduleInv (busyAt 0x01 4 0 false 16) ∧
    (nextOf (step (busyAt 0x01 4 0 false 16))).isSome = true :=
  ⟨test_coreInv_busy.1, test_scheduleInv_busy, by decide +kernel⟩

theorem test_InvariantStatesNeverStop_witness : CoreInv State.reset ∧ CoreInv (busyAt 0x02 8 58 true 16) :=
  ⟨test_coreInv_reset, test_coreInv_busy.2.2⟩

/-- The three key lengths. -/
theorem test_KeyloadExpandsTheKey_witness :
    ∀ n ∈ [16, 24, 32], Idle (hostSend (commandFrame 0x01 (hexBytes n 1)) State.reset) ∧
      Memory.wf (hostSend (commandFrame 0x01 (hexBytes n 1)) State.reset).ks = true ∧ (hexBytes n 1).length = n ∧
      (hostSend (commandFrame 0x01 (hexBytes n 1)) State.reset).cmdPort = commandFrame 0x01 (hexBytes n 1) ++ [] ∧
      1 ≤ 1 ∧ 1 < 4 * (n / 4 + 7) + 2 := by
  intro n hn
  refine ⟨⟨rfl, rfl⟩, rfl, ?_, ?_, by omega, by omega⟩
  · simp [hexBytes]
  · simp [hostSend, State.reset]

theorem test_EncryptAnswersTheCipher_witness :
    let s := hostSend (commandFrame 0x02 (hexVec 16 1).toList) (keyed 6)
    Idle s ∧ s.keyValid = true ∧ nkLegal s.nk = true ∧ s.cmdPort = commandFrame 0x02 (hexVec 16 1).toList ++ [] ∧
      1 ≤ 51 ∧ 51 < 4 * (s.nk.toNat + 6) + 4 := by
  refine ⟨⟨rfl, rfl⟩, rfl, rfl, ?_, by decide, by decide⟩
  simp [hostSend, keyed, State.reset]

theorem test_DecryptAnswersTheInverseCipher_witness :
    let s := hostSend (commandFrame 0x03 (hexVec 16 1).toList) (keyed 8)
    Idle s ∧ s.keyValid = true ∧ nkLegal s.nk = true ∧ s.cmdPort = commandFrame 0x03 (hexVec 16 1).toList ++ [] ∧
      1 ≤ 59 ∧ 59 < 4 * (s.nk.toNat + 6) + 4 := by
  refine ⟨⟨rfl, rfl⟩, rfl, rfl, ?_, by decide, by decide⟩
  simp [hostSend, keyed, State.reset]

/-- Both orders of the two directions, from a state in which all hypotheses hold, and a later state with the same schedule. -/
theorem test_DecryptUndoesEncrypt_witness :
    ∀ op ∈ [0x02#8, 0x03#8],
      let s := hostSend (commandFrame op (hexVec 16 1).toList) (keyed 4)
      let u : State := { keyed 4 with st := hexVec 16 9, cmdPort := commandFrame (5 - op) (hexVec 16 2).toList }
      Idle s ∧ s.keyValid = true ∧ nkLegal s.nk = true ∧ s.cmdPort = commandFrame op (hexVec 16 1).toList ∧
      (op = 0x02 ∧ 5 - op = 0x03 ∨ op = 0x03 ∧ 5 - op = 0x02) ∧
      Idle u ∧ u.keyValid = true ∧ u.ks = s.ks ∧ u.nk = s.nk := by
  intro op hop
  refine ⟨⟨rfl, rfl⟩, rfl, rfl, ?_, ?_, ⟨rfl, rfl⟩, rfl, rfl, rfl⟩
  · simp [hostSend, keyed, State.reset]
  · revert op; decide

/-- Two states that differ in KS, ST and NK, with the same commands at the port. -/
theorem test_ResponseDependsOnKeyAndBlockOnly_witness :
    let c := commandFrame 0x01 (hexBytes 24 1) ++ commandFrame 0x03 (hexVec 16 1).toList
    let s : State := { State.reset with cmdPort := c }
    let s' : State := { keyed 8 with st := hexVec 16 9, ks := ksAt 200 4 0x01020304 [], cmdPort := c }
    Idle s ∧ Idle s' ∧ Memory.wf s.ks = true ∧ Memory.wf s'.ks = true ∧ (hexBytes 24 1).length = 24 ∧
      (s.cmdPort = c ∧ s'.cmdPort = c) := by
  refine ⟨⟨rfl, rfl⟩, ⟨rfl, rfl⟩, rfl, by decide +kernel, by decide, rfl, rfl⟩

end Sys2Proof.Tests
end

section
/-! SUPPORT. The step relation `StepTo`: `step_cases` and `accept_cases` as one inductive with a named case for each thing a
step can do. Statements about every step are proved by cases on it. -/

namespace Sys2Proof.Machine

/-- Where one step from `s` can lead: a reset event, no step, an ACCEPT that raises an error, begins a KEYLOAD or begins a
block command, an EXEC, a COMPLETE (44_engine.md R160, R161, R165, R166, 70_reset_and_hazards.md R220). -/
inductive StepTo (s : State) : State → Prop where
  | reset (hr : s.resetReq = true) : StepTo s (takeReset s)
  | idle (hr : s.resetReq = false) (hb : s.busy = false) : StepTo s s
  | error (hr : s.resetReq = false) (hb : s.busy = false) (rest : List Byte) (e : ErrorName)
      (he : e ≠ .notImplemented) : StepTo s (raiseError e (setCmdPort s rest))
  | beginKeyload (hr : s.resetReq = false) (hb : s.busy = false) (rest p : List Byte) (len : Byte)
      (hl : len = 16 ∨ len = 24 ∨ len = 32) : StepTo s (beginCommand 0x01 len p (setCmdPort s rest))
  | beginBlock (hr : s.resetReq = false) (hb : s.busy = false) (rest p : List Byte) (op : Byte)
      (hop : op = 0x02 ∨ op = 0x03) (hk : s.keyValid = true) : StepTo s (beginCommand op 16 p (setCmdPort s rest))
  | exec (hr : s.resetReq = false) (hb : s.busy = true) (p : List Instr) (i : Instr) (u : State)
      (hp : prog s.cmd s.nk = some p) (hi : p[s.upc.toNat]? = some i) (hleg : microOpLegal s.nk i = true)
      (hu : Machine.exec i s = .next u) : StepTo s (advanceUpc u)
  | complete (hr : s.resetReq = false) (hb : s.busy = true) (p : List Instr) (hp : prog s.cmd s.nk = some p)
      (hl : s.upc.toNat = p.length) : StepTo s (Machine.complete s)

theorem stepTo_of_step {s t : State} (h : step s = .next t) : StepTo s t := by
  rcases step_cases h with ⟨hr, rfl⟩ | ⟨hr, hb, -, rfl⟩ | ⟨hr, hb, _, _, rest, -, rfl⟩ | ⟨hr, hb, i, rest, hd, ht⟩ |
    ⟨hr, hb, p, i, u, hp, hi, hleg, hu, rfl⟩ | ⟨hr, hb, p, hp, hl, rfl⟩
  · exact .reset hr
  · exact .idle hr hb
  · exact .error hr hb rest .illegalCommand (by decide)
  · rcases accept_cases hd ht with ⟨len, p, -, hl, -, rfl⟩ | ⟨op, p, hop, -, hk, rfl⟩ | ⟨e, he, rfl⟩
    · exact .beginKeyload hr hb rest p len hl
    · exact .beginBlock hr hb rest p op hop hk
    · exact .error hr hb rest e he
  · exact .exec hr hb p i u hp hi hleg hu
  · exact .complete hr hb p hp hl

end Sys2Proof.Machine
end

section
/-! SUPPORT. Which micro-ops stand where in Prog, and what a micro-op of each Prog does to the words of KS. -/

namespace Sys2Proof.Machine

/-! ### The micro-ops of Prog -/

/-- Place n of Prog(KEYLOAD): KXINIT n below Nk, KXSTEP n from Nk on (42_key_expansion.md R125). -/
theorem progKeyload_getElem? {nk n : Nat} {i : Instr} (h : (progKeyload nk)[n]? = some i) :
    (n < nk ∧ i = .kxinit (.ofNat 6 n)) ∨ (nk ≤ n ∧ i = .kxstep (.ofNat 6 n)) := by
  by_cases hn : n < nk
  · rw [progKeyload, List.getElem?_append_left (by simpa using hn)] at h
    simp only [List.getElem?_map, List.getElem?_range hn, Option.map_some, Option.some.injEq] at h
    exact .inl ⟨hn, h.symm⟩
  · rw [progKeyload, List.getElem?_append_right (by simpa using hn)] at h
    simp only [List.length_map, List.length_range, List.getElem?_map, Option.map_eq_some_iff] at h
    obtain ⟨j, hj, rfl⟩ := h
    obtain ⟨-, rfl⟩ := List.getElem?_eq_some_iff.1 hj
    have hs : nk + (n - nk) = n := by omega
    exact .inr ⟨by omega, by simp [hs]⟩

theorem progEncrypt_no_kx {nr : Nat} {i : Instr} (h : i ∈ progEncrypt nr) :
    (∀ w, i ≠ .kxinit w) ∧ ∀ w, i ≠ .kxstep w := by
  constructor <;> rintro w rfl <;> simp [progEncrypt, roundOps, finalRoundOps] at h

theorem progDecrypt_no_kx {nr : Nat} {i : Instr} (h : i ∈ progDecrypt nr) :
    (∀ w, i ≠ .kxinit w) ∧ ∀ w, i ≠ .kxstep w := by
  constructor <;> rintro w rfl <;> simp [progDecrypt, invRoundOps, invFinalRoundOps] at h

/-- A Prog has at most 60 micro-ops, so that UPC can count to its end. -/
theorem prog_length_le {cmd : Byte} {nk : BitVec 4} {p : List Instr} (h : prog cmd nk = some p) : p.length ≤ 60 := by
  obtain ⟨hn, hc⟩ := prog_length h
  have := nkLegal_toNat hn
  simp only [nrOf] at hc
  omega

/-- UPC + 1 does not wrap where a micro-op stands at UPC. -/
theorem upc_succ_toNat {cmd : Byte} {nk : BitVec 4} {p : List Instr} {i : Instr} {upc : BitVec 6}
    (hp : prog cmd nk = some p) (hi : p[upc.toNat]? = some i) : (upc + 1#6).toNat = upc.toNat + 1 := by
  obtain ⟨hlt, -⟩ := List.getElem?_eq_some_iff.1 hi
  have h60 := prog_length_le hp
  rw [BitVec.toNat_add, BitVec.toNat_ofNat]
  omega

/-- A key size and a command opcode have a Prog. -/
theorem prog_isSome {cmd : Byte} {nk : BitVec 4} (hn : nkLegal nk = true) (hc : cmd = 0x01 ∨ cmd = 0x02 ∨ cmd = 0x03) :
    ∃ p, prog cmd nk = some p := by
  rcases hc with rfl | rfl | rfl <;> exact ⟨_, by rw [prog, if_pos hn]; rfl⟩

theorem prog_keyload {nk : BitVec 4} {p : List Instr} (h : prog 0x01 nk = some p) :
    nkLegal nk = true ∧ p = progKeyload nk.toNat ∧ p.length = nWords nk := by
  obtain ⟨hn, ⟨-, hp, hl⟩ | ⟨hc, -⟩ | ⟨hc, -⟩⟩ := prog_length h
  · exact ⟨hn, hp, hl⟩
  · exact absurd hc (by decide)
  · exact absurd hc (by decide)

theorem block_op_ne {op : Byte} (hop : op = 0x02 ∨ op = 0x03) : op ≠ 1#8 := by
  rcases hop with rfl | rfl <;> decide

/-- No micro-op of a block command writes KS (20_memory.md R57). -/
theorem exec_block_ks {s u : State} {p : List Instr} {i : Instr} (hc : s.cmd ≠ 1#8) (hp : prog s.cmd s.nk = some p)
    (hi : i ∈ p) (hu : exec i s = .next u) : u.ks = s.ks := by
  have hks := (exec_microOp_ks (prog_issues hp hi).1 hu).2
  obtain ⟨-, ⟨h1, -⟩ | ⟨-, rfl, -⟩ | ⟨-, rfl, -⟩⟩ := prog_length hp
  · exact absurd h1 hc
  · exact hks (progEncrypt_no_kx hi).1 (progEncrypt_no_kx hi).2
  · exact hks (progDecrypt_no_kx hi).1 (progDecrypt_no_kx hi).2

/-! ### Words of KS after a write of one word -/

theorem ksw_memWrite_same {m m' : Memory} {n : Nat} {w : Word} (hm : Memory.wf m = true)
    (h : memWrite m (4 * n) w = some m') : ksw m' n = some w := by
  obtain ⟨hb, -, hw⟩ := memWrite_spec h
  rw [ksw, memRead_eq hb, Option.some.injEq]
  exact Vector.ext fun k hk => by simpa using (hw hm).2 k hk

theorem ksw_memWrite_other {m m' : Memory} {n j : Nat} {w : Word} (h : memWrite m (4 * n) w = some m') (hj : j ≠ n) :
    ksw m' j = ksw m j := by
  obtain ⟨-, hother, -⟩ := memWrite_spec h
  have hread (k : Fin 4) : readByte m' (4 * j + k) = readByte m (4 * j + k) := hother _ (by omega)
  simp only [ksw, memRead, hread]

/-- A schedule word is determined by the words up to its own. -/
theorem ScheduleWord.of_ksw_eq {m m' : Memory} {nk i : Nat} (h : ScheduleWord m nk i)
    (heq : ∀ j, j ≤ i → ksw m' j = ksw m j) : ScheduleWord m' nk i := by
  unfold ScheduleWord
  rwa [heq (i - 1) (by omega), heq (i - nk) (by omega), heq i le_rfl]

/-- The micro-op at place UPC of Prog(KEYLOAD) makes word UPC of KS, a word of the key below Nk and a derived word from Nk on,
and no other word (42_key_expansion.md R123, R124). -/
theorem exec_keyload_ksw {s u : State} {i : Instr} (hwf : Memory.wf s.ks = true) (hn : nkLegal s.nk = true)
    (hi : (progKeyload s.nk.toNat)[s.upc.toNat]? = some i) (hu : exec i s = .next u) :
    (∀ j, j ≠ s.upc.toNat → ksw u.ks j = ksw s.ks j) ∧
    (s.upc.toNat < s.nk.toNat → ksw u.ks s.upc.toNat = some (inWord s.inBuf s.upc.toNat)) ∧
    (s.nk.toNat ≤ s.upc.toNat → ScheduleWord u.ks s.nk.toNat s.upc.toNat) := by
  have hnk := nkLegal_toNat hn
  rcases progKeyload_getElem? hi with ⟨hlt, rfl⟩ | ⟨hge, rfl⟩ <;> rw [BitVec.ofNat_toNat, BitVec.setWidth_eq] at hu
  · obtain ⟨-, m, hm, rfl⟩ := execKxinit_next.1 hu
    exact ⟨fun j hj => ksw_memWrite_other hm hj, fun _ => ksw_memWrite_same hwf hm, fun h => absurd hlt (by omega)⟩
  · obtain ⟨-, w, m, hr, rfl⟩ := execKxstep_next.1 hu
    obtain ⟨prev, old, hprev, hold, htmp, hm⟩ := kxStepResult_spec hr
    have hother (j : Nat) (hj : j ≠ s.upc.toNat) : ksw m j = ksw s.ks j := ksw_memWrite_other hm hj
    refine ⟨hother, fun h => absurd h (by omega), fun _ => ⟨prev, old, w, ?_, ?_, htmp, ksw_memWrite_same hwf hm⟩⟩
    · exact (hother _ (by omega)).trans hprev
    · exact (hother _ (by omega)).trans hold

end Sys2Proof.Machine
end

section
/-! SUPPORT. The two invariants of the state: they hold with the control registers cleared, and each case of `StepTo` keeps
them. Settled here: O46, O52, O53. -/

namespace Sys2Proof.Machine

/-! ### The invariant -/

/-- The invariant with the control registers cleared, as after a reset (10_state.md R36). -/
theorem coreInv_of_cleared {s : State} (hks : Memory.wf s.ks = true) (hnk : s.nk = 0) (hlen : s.inLen = 0)
    (hupc : s.upc = 0) (hst : s.status = 0x00) (hk : s.keyValid = false) (hb : s.busy = false)
    (hr : ∀ r ∈ s.responses, Emittable r) : CoreInv s where
  ksWf := hks
  nkRange := .inl hnk
  inLenRange := by simp [hlen]
  upcRange := by simp [hupc]
  statusRange := .inl hst
  keyValidNk h := by simp [hk] at h
  inProgress h := by simp [hb] at h
  emitted := hr

theorem coreInv_takeReset {s : State} (h : CoreInv s) : CoreInv (takeReset s) :=
  coreInv_of_cleared (by simp [resetKs_wf]) (by simp) (by simp) (by simp) (by simp) (by simp) (by simp)
    (by simpa using h.emitted)

/-- The command port takes no part in the invariant. -/
theorem coreInv_setCmdPort {s : State} (h : CoreInv s) (rest : List Byte) : CoreInv (setCmdPort s rest) :=
  ⟨h.ksWf, h.nkRange, h.inLenRange, h.upcRange, h.statusRange, h.keyValidNk, h.inProgress, h.emitted⟩

theorem errorCode_raised {e : ErrorName} (he : e ≠ .notImplemented) :
    errorCode e = 0x01 ∨ errorCode e = 0x02 ∨ errorCode e = 0x04 ∨ errorCode e = 0x05 := by
  cases e with
  | notImplemented => exact absurd rfl he
  | _ => decide

theorem emittable_append {rs : List Response} {r : Response} (h : ∀ x ∈ rs, Emittable x) (hr : Emittable r) :
    ∀ x ∈ rs ++ [r], Emittable x := by
  simpa [or_imp, forall_and] using ⟨h, hr⟩

theorem coreInv_raiseError {s : State} (h : CoreInv s) {e : ErrorName} (hb : s.busy = false)
    (he : e ≠ .notImplemented) : CoreInv (raiseError e s) where
  ksWf := h.ksWf
  nkRange := h.nkRange
  inLenRange := h.inLenRange
  upcRange := h.upcRange
  statusRange := .inr (errorCode_raised he)
  keyValidNk := h.keyValidNk
  inProgress hb' := by simp [hb] at hb'
  emitted := emittable_append h.emitted (.inr ⟨errorCode_raised he, rfl, rfl⟩)

/-- LEN of a legal key is 4 NK bytes, and NK is then a key size (10_state.md R29). -/
theorem nkOfLen_key {len : Byte} (hl : len = 16 ∨ len = 24 ∨ len = 32) :
    nkLegal (nkOfLen len) = true ∧ (len.setWidth 6).toNat = 4 * (nkOfLen len).toNat := by
  rcases hl with rfl | rfl | rfl <;> decide

/-- A command that begins meets the invariant when its opcode, its NK, its length and KEY_VALID are what R161 asks. -/
theorem coreInv_beginCommand {s : State} (h : CoreInv s) {op len : Byte} {p : List Byte}
    (hnk : nkLegal (beginCommand op len p s).nk = true) (hprog : InProgress (beginCommand op len p s))
    (hl : len.toNat ≤ 32) : CoreInv (beginCommand op len p s) where
  ksWf := by simpa using h.ksWf
  nkRange := .inr hnk
  inLenRange := by
    have := Nat.mod_le len.toNat (2 ^ 6)
    simp only [beginCommand_inLen, BitVec.toNat_setWidth]
    omega
  upcRange := by simp
  statusRange := by simpa using h.statusRange
  keyValidNk _ := hnk
  inProgress _ := hprog
  emitted := by simpa using h.emitted

theorem coreInv_beginKeyload {s : State} (h : CoreInv s) {len : Byte} (p : List Byte)
    (hl : len = 16 ∨ len = 24 ∨ len = 32) : CoreInv (beginCommand 0x01 len p s) := by
  obtain ⟨hn, hlen⟩ := nkOfLen_key hl
  obtain ⟨q, hq⟩ := prog_isSome hn (.inl rfl)
  refine coreInv_beginCommand h (by simpa using hn) ⟨⟨q, by simpa using hq, by simp⟩, fun _ => by simpa using hlen, ?_⟩ ?_
  · simp
  · rcases hl with rfl | rfl | rfl <;> decide

theorem coreInv_beginBlock {s : State} (h : CoreInv s) {op : Byte} (p : List Byte) (hop : op = 0x02 ∨ op = 0x03)
    (hk : s.keyValid = true) : CoreInv (beginCommand op 16 p s) := by
  have hn := h.keyValidNk hk
  obtain ⟨q, hq⟩ := prog_isSome hn (.inr hop)
  have hnk : (beginCommand op 16 p s).nk = s.nk := by simp [block_op_ne hop]
  refine coreInv_beginCommand h (by rwa [hnk]) ⟨⟨q, by rw [hnk]; simpa using hq, by simp⟩, ?_, ?_⟩ (by decide)
  · intro h1
    exact absurd h1 (by simpa using block_op_ne hop)
  · intro _
    exact ⟨by simpa [block_op_ne hop] using hk, by simp⟩

/-- EXEC moves UPC one place on and keeps all else the invariant speaks of but KS, which stays canonical. -/
theorem coreInv_exec {s u : State} (h : CoreInv s) {p : List Instr} {i : Instr} (hb : s.busy = true)
    (hp : prog s.cmd s.nk = some p) (hi : p[s.upc.toNat]? = some i) (hleg : microOpLegal s.nk i = true)
    (hu : exec i s = .next u) : CoreInv (advanceUpc u) := by
  obtain ⟨-, hlen, hnk, hkv, -, hcmd, hupc, hst, -, hresp, -, -⟩ := exec_microOp_fields hleg hu
  obtain ⟨hlt, -⟩ := List.getElem?_eq_some_iff.1 hi
  have h60 := prog_length_le hp
  have hsucc : (advanceUpc u).upc.toNat = s.upc.toNat + 1 := by
    rw [advanceUpc_upc, hupc]
    exact upc_succ_toNat hp hi
  obtain ⟨-, hkey, hblock⟩ := h.inProgress hb
  exact {
    ksWf := (exec_microOp_ks hleg hu).1 h.ksWf
    nkRange := by simpa [hnk] using h.nkRange
    inLenRange := by simpa [hlen] using h.inLenRange
    upcRange := by omega
    statusRange := by simpa [hst] using h.statusRange
    keyValidNk := by simpa [hkv, hnk] using h.keyValidNk
    inProgress := fun _ => ⟨⟨p, by simpa [hcmd, hnk] using hp, by omega⟩,
      by simpa [hcmd, hkv, hlen, hnk] using hkey, by simpa [hcmd, hkv, hlen] using hblock⟩
    emitted := by simpa [hresp] using h.emitted }

theorem coreInv_complete {s : State} (h : CoreInv s) {p : List Instr} (hp : prog s.cmd s.nk = some p) :
    CoreInv (complete s) where
  ksWf := h.ksWf
  nkRange := h.nkRange
  inLenRange := h.inLenRange
  upcRange := h.upcRange
  statusRange := .inl rfl
  keyValidNk _ := (prog_length hp).1
  inProgress hb := by simp at hb
  emitted := by
    refine emittable_append h.emitted (.inl ?_)
    split_ifs
    · exact ⟨rfl, .inl ⟨rfl, rfl⟩⟩
    · exact ⟨rfl, .inr ⟨rfl, by simp⟩⟩

/-- Settles O52: each case of `StepTo` keeps the invariant. -/
theorem stepKeepsInvariant : Obligations.StepKeepsInvariant := by
  intro s t h hst
  cases stepTo_of_step hst with
  | reset hr => exact coreInv_takeReset h
  | idle hr hb => exact h
  | error hr hb rest e he => exact coreInv_raiseError (coreInv_setCmdPort h rest) hb he
  | beginKeyload hr hb rest p len hl => exact coreInv_beginKeyload (coreInv_setCmdPort h rest) p hl
  | beginBlock hr hb rest p op hop hk => exact coreInv_beginBlock (coreInv_setCmdPort h rest) p hop hk
  | exec hr hb p i u hp hi hleg hu => exact coreInv_exec h hb hp hi hleg hu
  | complete hr hb p hp hl => exact coreInv_complete h hp

/-! ### The schedule invariant -/

/-- With no key valid and no command in progress the schedule invariant promises nothing. -/
theorem scheduleInv_of_noKey_idle {s : State} (hk : s.keyValid = false) (hb : s.busy = false) : ScheduleInv s :=
  ⟨by simp [hk], by simp [hb], by simp [hb]⟩

theorem scheduleInv_raiseError {s : State} (h : ScheduleInv s) (e : ErrorName) : ScheduleInv (raiseError e s) :=
  ⟨h.complete, h.keyWords, h.derived⟩

theorem scheduleInv_setCmdPort {s : State} (h : ScheduleInv s) (rest : List Byte) : ScheduleInv (setCmdPort s rest) :=
  ⟨h.complete, h.keyWords, h.derived⟩

/-- A KEYLOAD begins with KEY_VALID = 0 and UPC = 0: there is no word to speak of. -/
theorem scheduleInv_beginKeyload (s : State) (len : Byte) (p : List Byte) : ScheduleInv (beginCommand 0x01 len p s) :=
  ⟨by simp, by simp, by simp⟩

theorem scheduleInv_beginBlock {s : State} (h : ScheduleInv s) {op : Byte} (len : Byte) (p : List Byte)
    (hop : op ≠ 1#8) : ScheduleInv (beginCommand op len p s) :=
  ⟨by simpa [hop] using h.complete, by simp [hop], by simp [hop]⟩

/-- EXEC of a block command leaves KS, and with it the schedule. -/
theorem scheduleInv_execBlock {s u : State} (h : ScheduleInv s) {p : List Instr} {i : Instr} (hc : s.cmd ≠ 1#8)
    (hp : prog s.cmd s.nk = some p) (hi : i ∈ p) (hu : exec i s = .next u) : ScheduleInv (advanceUpc u) := by
  obtain ⟨-, -, hnk, hkv, -, hcmd, -⟩ := exec_microOp_fields (prog_issues hp hi).1 hu
  have hks := exec_block_ks hc hp hi hu
  exact ⟨by simpa [hnk, hkv, hks] using h.complete, by simp [hcmd, hc], by simp [hcmd, hc]⟩

/-- EXEC of a KEYLOAD adds word UPC to the words made so far and keeps those below it. -/
theorem scheduleInv_execKeyload {s u : State} (h : ScheduleInv s) (hinv : CoreInv s) {p : List Instr} {i : Instr}
    (hb : s.busy = true) (hc : s.cmd = 1#8) (hp : prog s.cmd s.nk = some p) (hi : p[s.upc.toNat]? = some i)
    (hu : exec i s = .next u) : ScheduleInv (advanceUpc u) := by
  obtain ⟨hn, rfl, -⟩ := prog_keyload (hc ▸ hp)
  obtain ⟨hold, hkey, hderived⟩ := exec_keyload_ksw hinv.ksWf hn hi hu
  obtain ⟨hbuf, -, hnk, hkv, -, -, hupc, -⟩ := exec_microOp_fields (prog_issues hp (List.mem_of_getElem? hi)).1 hu
  obtain ⟨-, hkeyload, -⟩ := hinv.inProgress hb
  have hlt : ∀ j, j < (advanceUpc u).upc.toNat → j < s.upc.toNat ∨ j = s.upc.toNat := by
    intro j hj
    rw [advanceUpc_upc, hupc, show (s.upc + 1).toNat = s.upc.toNat + 1 from upc_succ_toNat hp hi] at hj
    omega
  refine ⟨by simp [hkv, (hkeyload hc).1], fun _ _ j hj hju => ?_, fun _ _ j hj hju => ?_⟩ <;>
    simp only [advanceUpc_ks, advanceUpc_nk, advanceUpc_inBuf, hbuf, hnk] at hj ⊢
  · rcases hlt j hju with hj' | rfl
    · exact (hold j (by omega)).trans (h.keyWords hb hc j hj hj')
    · exact hkey hj
  · rcases hlt j hju with hj' | rfl
    · exact (h.derived hb hc j hj hj').of_ksw_eq fun k hk => hold k (by omega)
    · exact hderived hj

/-- At COMPLETE of a KEYLOAD UPC has passed every word of the schedule, so the schedule is complete. -/
theorem scheduleInv_complete {s : State} (h : ScheduleInv s) {p : List Instr} (hb : s.busy = true)
    (hp : prog s.cmd s.nk = some p) (hl : s.upc.toNat = p.length) : ScheduleInv (complete s) := by
  refine ⟨fun hk i hi hin => ?_, by simp, by simp⟩
  by_cases hc : s.cmd = 1#8
  · obtain ⟨-, -, hlen⟩ := prog_keyload (hc ▸ hp)
    rw [complete_nk] at hin
    exact h.derived hb hc i hi (by omega)
  · exact h.complete (by simpa [hc] using hk) i hi hin

/-- Settles O53: each case of `StepTo` keeps the schedule invariant; the cases that matter are EXEC and COMPLETE of a
KEYLOAD. -/
theorem stepKeepsScheduleInvariant : Obligations.StepKeepsScheduleInvariant := by
  intro s t hinv h hst
  cases stepTo_of_step hst with
  | reset hr => exact scheduleInv_of_noKey_idle (by simp) (by simp)
  | idle hr hb => exact h
  | error hr hb rest e he => exact scheduleInv_raiseError (scheduleInv_setCmdPort h rest) e
  | beginKeyload hr hb rest p len hl => exact scheduleInv_beginKeyload _ len p
  | beginBlock hr hb rest p op hop hk =>
    exact scheduleInv_beginBlock (scheduleInv_setCmdPort h rest) 16 p (block_op_ne hop)
  | exec hr hb p i u hp hi hleg hu =>
    by_cases hc : s.cmd = 1#8
    · exact scheduleInv_execKeyload h hinv hb hc hp hi hu
    · exact scheduleInv_execBlock h hc hp (List.mem_of_getElem? hi) hu
  | complete hr hb p hp hl => exact scheduleInv_complete h hb hp hl

/-- Settles O46: State.reset has its control registers cleared, KS lists nothing and no response was emitted. -/
theorem resetMeetsTheInvariants : Obligations.ResetMeetsTheInvariants :=
  ⟨coreInv_of_cleared rfl rfl rfl rfl rfl rfl rfl (by simp [State.reset]), scheduleInv_of_noKey_idle rfl rfl⟩

end Sys2Proof.Machine
end

section
/-! SUPPORT. What a step does to the control registers. Settled here: O45, O47, O49. -/

namespace Sys2Proof.Machine

/-- Settles O47: UPC in each case of `StepTo`. -/
theorem upcCountsByOneOrClears : Obligations.UpcCountsByOneOrClears := by
  intro s t hst
  cases stepTo_of_step hst with
  | reset hr => simp [hr]
  | idle hr hb => simp [hr, hb]
  | error hr hb rest e he => simp [hr, hb]
  | beginKeyload hr hb rest p len hl => simp [hr, hb]
  | beginBlock hr hb rest p op hop hk => simp [hr, hb]
  | exec hr hb p i u hp hi hleg hu =>
    obtain ⟨-, -, -, -, hbu, -, hupc, -⟩ := exec_microOp_fields hleg hu
    simp [hr, hb, hbu, hupc]
  | complete hr hb p hp hl => simp [hr, hb]

/-- Settles O49: of the cases of `StepTo` without a reset only EXEC of a KEYLOAD writes KS, while KEY_VALID = 0 by the
invariant, and only the begin and the COMPLETE of a KEYLOAD write NK or KEY_VALID. -/
theorem onlyKeyloadChangesTheKey : Obligations.OnlyKeyloadChangesTheKey := by
  intro s t h hreset hst
  cases stepTo_of_step hst with
  | reset hr => simp [hr] at hreset
  | idle hr hb => simp
  | error hr hb rest e he => simp
  | beginKeyload hr hb rest p len hl => simp [hb]
  | beginBlock hr hb rest p op hop hk => simp [block_op_ne hop]
  | exec hr hb p i u hp hi hleg hu =>
    obtain ⟨-, -, hnk, hkv, -⟩ := exec_microOp_fields hleg hu
    obtain ⟨-, hkey, -⟩ := h.inProgress hb
    refine ⟨fun hks => ?_, by simp [hnk, hkv]⟩
    by_cases hc : s.cmd = 1#8
    · exact ⟨hb, hc, (hkey hc).1⟩
    · exact absurd (exec_block_ks hc hp (List.mem_of_getElem? hi) hu) hks
  | complete hr hb p hp hl => by_cases hc : s.cmd = 1#8 <;> simp [hc, hb]

/-- The step after the host asserts reset is the reset event (70_reset_and_hazards.md R220). -/
theorem step_hostAssertReset (s : State) : step (hostAssertReset s) = .next (takeReset (hostAssertReset s)) := by
  simp [step, nextAction_reset (hostAssertReset_resetReq s)]

/-- Settles O45: the reset event gives the control registers the values they have in State.reset. -/
theorem resetClearsControl : Obligations.ResetClearsControl := by
  refine ⟨⟨rfl, rfl, rfl, rfl, rfl, rfl, rfl, rfl⟩, fun s => ⟨_, step_hostAssertReset s, ?_⟩⟩
  simp

end Sys2Proof.Machine
end

section
/-! SUPPORT. MemRead after MemWrite (20_memory.md R51). Settled here: O10. -/

namespace Sys2Proof.Machine

/-- In a canonical KS, a read at the place just written gives the bytes written. -/
theorem memRead_memWrite_same {n a : Nat} {m m' : Memory} {v : Vector Byte n} (hm : Memory.wf m = true)
    (h : memWrite m a v = some m') : memRead m' a n = some v := by
  obtain ⟨hb, -, hw⟩ := memWrite_spec h
  obtain ⟨-, hv⟩ := hw hm
  rw [memRead_eq hb, Option.some.injEq]
  exact Vector.ext fun k hk => by simpa using hv k hk

/-- Settles O10: inside KS the read and the write succeed, and what the write does is `memWrite_spec`. -/
theorem memWriteThenMemRead : Obligations.MemWriteThenMemRead := by
  intro n a m v hm hb
  have hwrite := memWrite_eq (m := m) v hb
  obtain ⟨-, hother, hw⟩ := memWrite_spec hwrite
  obtain ⟨hwf, -⟩ := hw hm
  exact ⟨memRead_eq hb, _, hwrite, hwf, memRead_memWrite_same hm hwrite, hother⟩

end Sys2Proof.Machine
end

section
/-! SUPPORT. The two decoders read what the encoder writes, and nothing else (30_encoding.md R71 to R73, R78 to R81, R85): one
equivalence for micro-op words and one for command frames, and which micro-ops a key size allows. Settled here: O12, O13, O14,
O15. -/

namespace Sys2Proof.Machine

/-! ### The UOP table (30_encoding.md R80, R81) -/

/-- The UOP values without a micro-op. -/
def unassignedUops : List (BitVec 4) := [0x0, 0x5, 0xD, 0xE, 0xF]

/-- The UOP values of the micro-ops without an operand. -/
def operandlessUops : List (BitVec 4) := [0x2, 0x3, 0x4, 0x6, 0x7, 0x8, 0x9, 0xA]

theorem uop_cases : ∀ uop : BitVec 4,
    uop ∈ unassignedUops ∨ uop ∈ operandlessUops ∨ uop = 0x1 ∨ uop = 0xB ∨ uop = 0xC := by
  decide

theorem microOpOf_unassigned {uop : BitVec 4} (h : uop ∈ unassignedUops) (arg : BitVec 6) : microOpOf uop arg = none := by
  simp only [unassignedUops, List.mem_cons, List.not_mem_nil, or_false] at h
  rcases h with rfl | rfl | rfl | rfl | rfl <;> rfl

/-- An operandless UOP names one micro-op, which is encoded with ARG = 0 and legal under every NK. -/
theorem microOpOf_operandless {uop : BitVec 4} (h : uop ∈ operandlessUops) :
    ∃ i, (∀ arg, microOpOf uop arg = noOperand arg i) ∧ encode i = .microOp (uop ++ 0#6) ∧
      ∀ nk, microOpLegal nk i = true := by
  simp only [operandlessUops, List.mem_cons, List.not_mem_nil, or_false] at h
  rcases h with rfl | rfl | rfl | rfl | rfl | rfl | rfl | rfl
  · exact ⟨.subbytes, fun _ => rfl, rfl, fun _ => rfl⟩
  · exact ⟨.shiftrows, fun _ => rfl, rfl, fun _ => rfl⟩
  · exact ⟨.mixcolumns, fun _ => rfl, rfl, fun _ => rfl⟩
  · exact ⟨.invsubbytes, fun _ => rfl, rfl, fun _ => rfl⟩
  · exact ⟨.invshiftrows, fun _ => rfl, rfl, fun _ => rfl⟩
  · exact ⟨.invmixcolumns, fun _ => rfl, rfl, fun _ => rfl⟩
  · exact ⟨.loadstate, fun _ => rfl, rfl, fun _ => rfl⟩
  · exact ⟨.storeout, fun _ => rfl, rfl, fun _ => rfl⟩

theorem noOperand_eq_some_iff {arg : BitVec 6} {i j : Instr} : noOperand arg i = some j ↔ arg = 0 ∧ i = j := by
  simp [noOperand]

/-! ### Micro-op words -/

@[simp] theorem uopField_append (uop : BitVec 4) (arg : BitVec 6) : uopField (uop ++ arg) = uop :=
  (Laws.Opcode.fields_of_word uop arg).1

@[simp] theorem argField_append (uop : BitVec 4) (arg : BitVec 6) : argField (uop ++ arg) = arg :=
  (Laws.Opcode.fields_of_word uop arg).2

theorem uopField_append_argField (mw : BitVec 10) : uopField mw ++ argField mw = mw := by
  exact (BitVec.extractLsb'_append_extractLsb'_eq_extractLsb' rfl).trans BitVec.extractLsb'_eq_self

theorem encode_of_microOpOf {uop : BitVec 4} {arg : BitVec 6} {i : Instr} (h : microOpOf uop arg = some i) :
    encode i = .microOp (uop ++ arg) := by
  rcases uop_cases uop with hu | hu | rfl | rfl | rfl
  · simp [microOpOf_unassigned hu] at h
  · obtain ⟨j, hj, he, -⟩ := microOpOf_operandless hu
    obtain ⟨rfl, rfl⟩ := noOperand_eq_some_iff.1 ((hj arg).symm.trans h)
    exact he
  all_goals
    obtain rfl := Option.some.inj h
    rfl

/-- The table that decodes a micro-op word and the table that encodes one are the same (R80). -/
theorem microOpOf_fields_iff {mw : BitVec 10} {i : Instr} :
    microOpOf (uopField mw) (argField mw) = some i ↔ encode i = .microOp mw := by
  constructor
  · intro h
    rw [encode_of_microOpOf h, uopField_append_argField]
  · intro h
    cases i with
    | keyload _ _ | encrypt _ _ | decrypt _ _ => simp [encode] at h
    | _ =>
      obtain rfl := Encoded.microOp.inj h
      rw [uopField_append, argField_append]
      rfl

/-- A word decodes under an NK exactly to the micro-op it encodes, where the NK allows that (R85). -/
theorem decodeMicroOp_ok_iff {nk : BitVec 4} {mw : BitVec 10} {i : Instr} :
    decodeMicroOp nk mw = .ok i ↔ encode i = .microOp mw ∧ microOpLegal nk i = true := by
  rw [← microOpOf_fields_iff, decodeMicroOp]
  cases microOpOf (uopField mw) (argField mw) with
  | none => simp
  | some j =>
    by_cases hji : j = i
    · obtain rfl := hji
      cases hl : microOpLegal nk j <;> simp [hl]
    · cases hl : microOpLegal nk j <;> simp [hl, hji]

theorem decodeMicroOpAnyKey_some_iff {mw : BitVec 10} {i : Instr} :
    decodeMicroOpAnyKey mw = some i ↔ encode i = .microOp mw ∧ i.wellFormed = true := by
  rw [← microOpOf_fields_iff, decodeMicroOpAnyKey]
  cases microOpOf (uopField mw) (argField mw) with
  | none => simp
  | some j => simpa [and_comm] using fun h => by rw [h]

/-- A word is refused exactly when the micro-op that the table has for it, if any, is not allowed by NK. -/
theorem decodeMicroOp_error_iff {nk uop : BitVec 4} {arg : BitVec 6} :
    decodeMicroOp nk (uop ++ arg) = .error (.reservedMicroOp (uop ++ arg)) ↔
      ∀ i, microOpOf uop arg = some i → microOpLegal nk i = false := by
  rw [decodeMicroOp, uopField_append, argField_append]
  cases microOpOf uop arg with
  | none => simp
  | some j => cases hl : microOpLegal nk j <;> simp [hl]

/-! ### What the key sizes allow (30_encoding.md R79, R81) -/

theorem wellFormed_of_microOpLegal {nk : BitVec 4} {i : Instr} (hn : nkLegal nk = true)
    (h : microOpLegal nk i = true) : i.wellFormed = true := by
  have hnk := nkLegal_toNat hn
  cases i with
  | keyload _ _ | encrypt _ _ | decrypt _ _ => simp [microOpLegal] at h
  | addroundkey r => simpa [Instr.wellFormed] using (microOpLegal_addroundkey.1 h).2
  | kxinit i => simpa [Instr.wellFormed] using (microOpLegal_kxinit.1 h).2
  | kxstep i =>
    obtain ⟨-, hlo, hhi⟩ := microOpLegal_kxstep.1 h
    simp only [Instr.wellFormed, Bool.and_eq_true, decide_eq_true_eq]
    omega
  | _ => rfl

/-- Some key size allows a well-formed micro-op: Nk = 4 the KXSTEPs up to word 43, Nk = 8 all else. -/
theorem exists_microOpLegal_of_wellFormed {i : Instr} {mw : BitVec 10} (he : encode i = .microOp mw)
    (hw : i.wellFormed = true) : ∃ nk, nkLegal nk = true ∧ microOpLegal nk i = true := by
  cases i with
  | keyload _ _ | encrypt _ _ | decrypt _ _ => simp [encode] at he
  | addroundkey r =>
    have hr : r.toNat ≤ 14 := by simpa [Instr.wellFormed] using hw
    exact ⟨8, rfl, microOpLegal_addroundkey.2 ⟨hr, hr⟩⟩
  | kxinit i =>
    have hi : i.toNat < 8 := by simpa [Instr.wellFormed] using hw
    exact ⟨8, rfl, microOpLegal_kxinit.2 ⟨hi, hi⟩⟩
  | kxstep i =>
    obtain ⟨hlo, hhi⟩ : 4 ≤ i.toNat ∧ i.toNat < 60 := by simpa [Instr.wellFormed] using hw
    by_cases h44 : i.toNat < 44
    · exact ⟨4, rfl, microOpLegal_kxstep.2 ⟨rfl, hlo, h44⟩⟩
    · exact ⟨8, rfl, microOpLegal_kxstep.2 ⟨rfl, show 8 ≤ i.toNat by omega, hhi⟩⟩
  | _ => exact ⟨8, rfl, rfl⟩

/-! ### Command frames -/

/-- The bytes at the port decode to a command exactly when its frame stands first there (R72, R85). -/
theorem decodeFrame_command_iff {bytes rest : List Byte} {i : Instr} :
    decodeFrame bytes = .command i rest ↔
      ∃ fr, encode i = .frame fr ∧ bytes = fr ++ rest ∧ i.wellFormed = true := by
  constructor
  · intro h
    obtain ⟨len, p, hp, ⟨rfl, rfl⟩ | ⟨rfl, rfl⟩ | ⟨rfl, rfl⟩⟩ := decodeFrame_command h <;>
      exact ⟨_, rfl, rfl, frameWellFormed_iff.2 hp⟩
  · rintro ⟨fr, he, rfl, hw⟩
    cases i with
    | keyload len p | encrypt len p | decrypt len p =>
      obtain rfl := Encoded.frame.inj he
      exact decodeFrame_frame (frameWellFormed_iff.1 hw)
    | _ => simp [encode] at he

/-! ### The statements -/

/-- Settles O13: each decoder's equivalence, read from the encoding. -/
theorem decodeOfEncodeIsIdentity : Obligations.DecodeOfEncodeIsIdentity := by
  intro i hw
  cases he : encode i with
  | frame bytes => exact .inl ⟨bytes, rfl, fun rest => decodeFrame_command_iff.2 ⟨bytes, he, rfl, hw⟩⟩
  | microOp mw =>
    exact .inr ⟨mw, rfl, decodeMicroOpAnyKey_some_iff.2 ⟨he, hw⟩, fun nk hl => decodeMicroOp_ok_iff.2 ⟨he, hl⟩,
      exists_microOpLegal_of_wellFormed he hw⟩

/-- Settles O14: each decoder's equivalence, read from what was decoded. -/
theorem encodeOfDecodeIsIdentity : Obligations.EncodeOfDecodeIsIdentity := by
  refine ⟨fun nk mw i hn h => ?_, fun bytes rest i h => decodeFrame_command_iff.1 h⟩
  obtain ⟨he, hl⟩ := decodeMicroOp_ok_iff.1 h
  exact ⟨he, wellFormed_of_microOpLegal hn hl, hl⟩

/-- Settles O15: ORCH's part is `prog_issues`; the reserved words are counted off row by row of the UOP table. -/
theorem reservedMicroOpWordsRefused : Obligations.ReservedMicroOpWordsRefused := by
  refine ⟨fun cmd nk p i hp hi => (prog_issues hp hi).2, fun nk uop arg hn => ?_⟩
  have hnk := nkLegal_toNat hn
  have hrow {i : Instr} (hi : microOpOf uop arg = some i) :
      decodeMicroOp nk (uop ++ arg) = .error (.reservedMicroOp (uop ++ arg)) ↔ ¬microOpLegal nk i = true := by
    simp [decodeMicroOp_error_iff, hi]
  rcases uop_cases uop with hu | hu | rfl | rfl | rfl
  · refine iff_of_true ?_ (by simp [decodeMicroOp_error_iff, microOpOf_unassigned hu])
    simp only [unassignedUops, List.mem_cons, List.not_mem_nil, or_false] at hu
    tauto
  · obtain ⟨i, hi, -, hl⟩ := microOpOf_operandless hu
    have hrefused : decodeMicroOp nk (uop ++ arg) = .error (.reservedMicroOp (uop ++ arg)) ↔ arg ≠ 0 := by
      simp [decodeMicroOp_error_iff, hi, noOperand_eq_some_iff, hl]
    rw [hrefused]
    simp only [operandlessUops, List.mem_cons, List.not_mem_nil, or_false] at hu
    rcases hu with rfl | rfl | rfl | rfl | rfl | rfl | rfl | rfl <;> simp
  · have hrange : ¬(arg.toNat ≤ nk.toNat + 6 ∧ arg.toNat ≤ 14) ↔ nk.toNat + 6 < arg.toNat := by omega
    rw [hrow rfl, microOpLegal_addroundkey, hrange]
    simp
  · have hrange : ¬(arg.toNat < nk.toNat ∧ arg.toNat < 8) ↔ nk.toNat ≤ arg.toNat := by omega
    rw [hrow rfl, microOpLegal_kxinit, hrange]
    simp
  · have hrange : ¬(nk.toNat ≤ arg.toNat ∧ arg.toNat < 4 * (nk.toNat + 7)) ↔
        arg.toNat < nk.toNat ∨ 4 * (nk.toNat + 6 + 1) ≤ arg.toNat := by omega
    rw [hrow rfl, microOpLegal_kxstep, and_iff_right hn, hrange]
    simp

/-- Settles O12: closed evaluations of the two decoders. -/
theorem handWordsDecode : Obligations.HandWordsDecode := by
  unfold Obligations.HandWordsDecode
  decide

end Sys2Proof.Machine
end

section
/-! SUPPORT. Terms that are no instruction of the core are refused by name, in every state (30_encoding.md R72, R81). Settled
here: O30. -/

namespace Sys2Proof.Machine

theorem execAddroundkey_refused {s : State} {r : BitVec 6} (h : ¬microOpLegal s.nk (.addroundkey r) = true) :
    execAddroundkey r s = .refused (.reservedMicroOp (0x1#4 ++ r)) := if_neg h

theorem execKxinit_refused {s : State} {i : BitVec 6} (h : ¬microOpLegal s.nk (.kxinit i) = true) :
    execKxinit i s = .refused (.reservedMicroOp (0xB#4 ++ i)) := if_neg h

theorem execKxstep_refused {s : State} {i : BitVec 6} (h : ¬microOpLegal s.nk (.kxstep i) = true) :
    execKxstep i s = .refused (.reservedMicroOp (0xC#4 ++ i)) := if_neg h

theorem execKeyload_malformed {s : State} {len : Byte} {p : List Byte} (h : p.length ≠ len.toNat) :
    execKeyload len p s = .refused .malformedFrame := if_neg (mt frameWellFormed_iff.1 h)

theorem acceptBlock_malformed {s : State} {op len : Byte} {p : List Byte} (h : p.length ≠ len.toNat) :
    acceptBlock op len p s = .refused .malformedFrame := if_neg (mt frameWellFormed_iff.1 h)

/-- Settles O30: an ARG out of range is not legal under NK, and a payload that is not LEN bytes makes no well-formed frame. -/
theorem illegalTermsRefused : Obligations.IllegalTermsRefused := by
  intro s a
  refine ⟨fun h => execAddroundkey_refused ?_, fun h => execKxinit_refused ?_, fun h => execKxstep_refused ?_,
    fun len p hp => ⟨execKeyload_malformed hp, acceptBlock_malformed hp, acceptBlock_malformed hp⟩⟩
  · rw [microOpLegal_addroundkey]
    omega
  · rw [microOpLegal_kxinit]
    omega
  · rw [microOpLegal_kxstep]
    omega

end Sys2Proof.Machine
end

section
/-! SUPPORT. The two streams: a frame that is not whole waits at the port (30_encoding.md R72), and what a step may append to
the response stream (R75, R76). Settled here: O39, O50. -/

namespace Sys2Proof.Machine

/-! ### The command stream -/

theorem decodeFrame_short {op len : Byte} {p : List Byte} (h : p.length < len.toNat) :
    decodeFrame (op :: len :: p) = .incomplete := if_pos h

/-- An idle engine with no whole frame at the port has no step (44_engine.md R160; log entry 4). -/
theorem step_incomplete {s : State} (hs : Idle s) (h : decodeFrame s.cmdPort = .incomplete) : step s = .next s := by
  obtain ⟨hb, hr⟩ := hs
  simp [step, nextAction_idle hr hb, idleAction, h]

/-- Settles O39: none of the three is a whole frame. -/
theorem partialFrameWaits : Obligations.PartialFrameWaits := by
  rintro s op len p hs (h | h | ⟨h, hp⟩) <;> refine step_incomplete hs ?_ <;> rw [h]
  · rfl
  · rfl
  · exact decodeFrame_short hp

/-! ### The response stream -/

theorem emittable_error {e : ErrorName} (he : e ≠ .notImplemented) : Emittable ⟨errorCode e, 0, []⟩ :=
  .inr ⟨errorCode_raised he, rfl, rfl⟩

/-- The response of COMPLETE: OK alone for KEYLOAD, OK with the block in OUT for a block command (44_engine.md R166). -/
theorem emittable_complete (s : State) :
    Emittable (if s.cmd = 0x01 then ⟨0x00, 0, []⟩ else ⟨0x00, 16, s.out.toList⟩) := by
  split_ifs
  · exact .inl ⟨rfl, .inl ⟨rfl, rfl⟩⟩
  · exact .inl ⟨rfl, .inr ⟨rfl, by simp⟩⟩

/-- No response of the table is NotImplemented (60_exceptions.md R193). -/
theorem Emittable.rs_ne_notImplemented {r : Response} (h : Emittable r) : r.rs ≠ 0x03 := by
  rcases h with ⟨hrs, -⟩ | ⟨hrs | hrs | hrs | hrs, -⟩ <;> rw [hrs] <;> decide

/-- Settles O50: of the cases of `StepTo` only an error and COMPLETE emit. -/
theorem everyResponseIsOneOfTheTable : Obligations.EveryResponseIsOneOfTheTable := by
  intro s t hst
  cases stepTo_of_step hst with
  | reset hr => exact .inl (takeReset_responses s)
  | idle hr hb => exact .inl rfl
  | error hr hb rest e he =>
    have hem := emittable_error he
    exact .inr ⟨_, raiseError_responses _ e, hem, hem.rs_ne_notImplemented, rfl, hb⟩
  | beginKeyload hr hb rest p len hl => exact .inl (beginCommand_responses _ _ len p)
  | beginBlock hr hb rest p op hop hk => exact .inl (beginCommand_responses _ op _ p)
  | exec hr hb p i u hp hi hleg hu =>
    obtain ⟨-, -, -, -, -, -, -, -, -, hresp, -, -⟩ := exec_microOp_fields hleg hu
    exact .inl hresp
  | complete hr hb p hp hl =>
    have hem := emittable_complete s
    exact .inr ⟨_, complete_responses s, hem, hem.rs_ne_notImplemented, by split_ifs <;> rfl, rfl⟩

end Sys2Proof.Machine
end

section
/-! SUPPORT. The field GF(2^8) (40_gf_arithmetic.md R100 to R102). GMUL by the single bit i is XTIME taken i times, and
two functions that XOR passes through are equal once they agree on the single bits, so the laws of GMUL come from those of
XTIME. Settled here: O1, O2, O3. -/

namespace Sys2Proof.Machine

/-! ### Functions additive over XOR -/

theorem additive_zero {f : Byte → Byte} (hf : ∀ a b, f (a ^^^ b) = f a ^^^ f b) : f 0 = 0 := by
  simpa using hf 0 0

/-- Two functions additive over XOR are equal when they agree on the eight single bits. -/
theorem additive_ext {f g : Byte → Byte} (hf : ∀ a b, f (a ^^^ b) = f a ^^^ f b)
    (hg : ∀ a b, g (a ^^^ b) = g a ^^^ g b) (bit : ∀ i : Fin 8, f (1#8 <<< i.val) = g (1#8 <<< i.val)) (b : Byte) :
    f b = g b := by
  induction b using byte_induction with
  | zero => rw [additive_zero hf, additive_zero hg]
  | xor a b ha hb => rw [hf, hg, ha, hb]
  | bit i => exact bit i

/-! ### XTIME -/

/-- The single bits are the doublings of 0x01. -/
theorem xtime_iterate_one : ∀ i : Fin 8, xtime^[i.val] 1 = 1#8 <<< i.val := by decide

theorem eq_zero_of_xtime_eq_zero : ∀ b : Byte, xtime b = 0 → b = 0 := by decide

theorem xtime_injective : Function.Injective xtime := by
  intro a b h
  have hker : xtime (a ^^^ b) = 0 := by rw [xtime_xor, h]; exact BitVec.xor_self
  exact BitVec.xor_eq_zero_iff.1 (eq_zero_of_xtime_eq_zero _ hker)

/-! ### GMUL as a sum of doublings -/

/-- `n` turns of the loop add to `p` the doublings of `a` that the low `n` bits of `b` select. -/
theorem gmulLoop_eq_foldl (n : Nat) (p a b : Byte) : gmulLoop n p a b =
    (List.range n).foldl (fun p i => if b.getLsbD i = true then p ^^^ xtime^[i] a else p) p := by
  induction n generalizing p a b with
  | zero => rfl
  | succ n ih =>
    rw [gmulLoop, ih, List.range_succ_eq_map, List.foldl_cons, List.foldl_map]
    simp only [BitVec.getLsbD_ushiftRight, Nat.add_comm 1, Function.iterate_succ_apply, Function.iterate_zero, id_eq,
      Nat.succ_eq_add_one]

theorem gmulLoop_xtime (n : Nat) (p a b : Byte) : gmulLoop n (xtime p) (xtime a) b = xtime (gmulLoop n p a b) := by
  induction n generalizing p a b with
  | zero => rfl
  | succ n ih =>
    rw [gmulLoop, gmulLoop, ← ih, apply_ite xtime, xtime_xor]

/-! ### The laws of GMUL -/

theorem gmul_zero (a : Byte) : gmul a 0 = 0 := additive_zero (gmul_xor_right a)

theorem gmul_bit (a : Byte) (i : Fin 8) : gmul a (1#8 <<< i.val) = xtime^[i.val] a := by
  rw [gmul, gmulLoop_eq_foldl]
  fin_cases i <;> simp [List.range_succ]

theorem gmul_xtime_left (a b : Byte) : gmul (xtime a) b = xtime (gmul a b) := by
  rw [gmul, gmul, ← gmulLoop_xtime, xtime_zero]

theorem gmul_xtime_iterate_left (n : Nat) (a b : Byte) : gmul (xtime^[n] a) b = xtime^[n] (gmul a b) :=
  Function.Semiconj.iterate_right (f := (gmul · b)) (fun a => gmul_xtime_left a b) n a

theorem gmul_one (a : Byte) : gmul a 1 = a := gmul_bit a 0

theorem gmul_two (a : Byte) : gmul a 2 = xtime a := gmul_bit a 1

theorem one_gmul (b : Byte) : gmul 1 b = b :=
  additive_ext (g := id) (gmul_xor_right 1) (fun _ _ => rfl) (fun i => (gmul_bit 1 i).trans (xtime_iterate_one i)) b

/-- Both operands of a product double the result: on a single bit, GMUL on either side is repeated XTIME. -/
theorem gmul_comm (a b : Byte) : gmul a b = gmul b a := by
  refine additive_ext (g := fun b => gmul b a) (gmul_xor_right a) (fun b b' => gmul_xor_left b b' a) (fun i => ?_) b
  calc gmul a (1#8 <<< i.val) = xtime^[i.val] (gmul 1 a) := by rw [gmul_bit, one_gmul]
    _ = gmul (1#8 <<< i.val) a := by rw [← gmul_xtime_iterate_left, xtime_iterate_one]

theorem zero_gmul (a : Byte) : gmul 0 a = 0 := by rw [gmul_comm, gmul_zero]

theorem gmul_assoc (a b c : Byte) : gmul a (gmul b c) = gmul (gmul a b) c := by
  refine additive_ext (f := fun c => gmul a (gmul b c)) (fun c c' => ?_) (gmul_xor_right _) (fun i => ?_) c
  · simp only [gmul_xor_right]
  · calc gmul a (gmul b (1#8 <<< i.val)) = gmul (xtime^[i.val] b) a := by rw [gmul_bit, gmul_comm]
      _ = gmul (gmul a b) (1#8 <<< i.val) := by rw [gmul_xtime_iterate_left, gmul_bit, gmul_comm b]

/-! ### Inverses -/

/-- Multiplication by 0x03 (`gmul_triple_left`), a generator of the bytes but 0x00 (`exists_triple_iterate`). -/
def triple (a : Byte) : Byte := xtime a ^^^ a

theorem gmul_triple_left (a b : Byte) : gmul (triple a) b = triple (gmul a b) := by
  rw [triple, gmul_xor_left, gmul_xtime_left, triple]

theorem triple_iterate_ne_zero (n : Nat) : triple^[n] 1 ≠ 0 := by
  have hstep : ∀ a : Byte, a ≠ 0 → triple a ≠ 0 := by decide
  induction n with
  | zero => decide
  | succ n ih => exact Function.iterate_succ_apply' triple n 1 ▸ hstep _ ih

theorem triple_iterate_255 : triple^[255] 1 = 1 := by decide +kernel

/-- The order of 0x03 divides 255 and none of its maximal proper divisors 85, 51 and 15. -/
theorem triple_minimalPeriod : Function.minimalPeriod triple 1 = 255 := by
  have hdvd : Function.minimalPeriod triple 1 ∣ 255 := Function.IsPeriodicPt.minimalPeriod_dvd triple_iterate_255
  have hproper {n : Nat} (hn : triple^[n] 1 ≠ 1) : ¬Function.minimalPeriod triple 1 ∣ n :=
    mt Function.isPeriodicPt_iff_minimalPeriod_dvd.2 hn
  have h85 := hproper (n := 85) (by decide +kernel)
  have h51 := hproper (n := 51) (by decide +kernel)
  have h15 := hproper (n := 15) (by decide +kernel)
  have hdivisors : ∀ d < 256, d ∣ 255 → ¬d ∣ 85 → ¬d ∣ 51 → ¬d ∣ 15 → d = 255 := by decide +kernel
  exact hdivisors _ (Nat.lt_succ_of_le (Nat.le_of_dvd (by decide) hdvd)) hdvd h85 h51 h15

theorem toNat_mem_Ico {a : Byte} (ha : a ≠ 0) : a.toNat ∈ Finset.Ico 1 256 :=
  Finset.mem_Ico.2 ⟨Nat.pos_of_ne_zero fun h => ha (BitVec.eq_of_toNat_eq h), a.isLt⟩

/-- The first 255 powers of 0x03 are distinct and none is 0x00, so they are all the other bytes. -/
theorem exists_triple_iterate {a : Byte} (ha : a ≠ 0) : ∃ n < 255, triple^[n] 1 = a := by
  have hmaps : Set.MapsTo (fun n => (triple^[n] 1).toNat) (Finset.range 255) (Finset.Ico 1 256) :=
    fun n _ => toNat_mem_Ico (triple_iterate_ne_zero n)
  have hinj : Set.InjOn (fun n => (triple^[n] 1).toNat) (Finset.range 255) := by
    intro m hm n hn h
    rw [Finset.coe_range, ← triple_minimalPeriod] at hm hn
    exact Function.iterate_injOn_Iio_minimalPeriod hm hn (BitVec.eq_of_toNat_eq h)
  obtain ⟨n, hn, h⟩ := Finset.surjOn_of_injOn_of_card_le _ hmaps hinj (by simp) (toNat_mem_Ico ha)
  exact ⟨n, by simpa using hn, BitVec.eq_of_toNat_eq h⟩

/-- The inverse of the n-th power of 0x03 is its power 255 - n. -/
theorem exists_gmul_eq_one {a : Byte} (ha : a ≠ 0) : ∃ b, gmul a b = 1 := by
  obtain ⟨n, hn, rfl⟩ := exists_triple_iterate ha
  refine ⟨triple^[255 - n] 1, ?_⟩
  have hgmul (b : Byte) : gmul (triple^[n] 1) b = triple^[n] (gmul 1 b) :=
    Function.Semiconj.iterate_right (f := (gmul · b)) (fun a => gmul_triple_left a b) n 1
  rw [hgmul, one_gmul, ← Function.iterate_add_apply, Nat.add_sub_cancel' hn.le, triple_iterate_255]

theorem gmul_inverse_unique {a b c : Byte} (hb : gmul a b = 1) (hc : gmul a c = 1) : b = c :=
  calc b = gmul b (gmul a c) := by rw [hc, gmul_one]
    _ = c := by rw [gmul_assoc, gmul_comm b, hb, one_gmul]

/-! ### The statements -/

/-- Settles O3: the laws above; an inverse exists since every byte but 0x00 is a power of 0x03, and associativity makes it
the only one. -/
theorem gmulIsFieldMultiplication : Obligations.GmulIsFieldMultiplication := by
  refine ⟨gmul_comm, gmul_assoc, gmul_xor_right, fun a => ⟨gmul_one a, gmul_zero a, gmul_two a, BitVec.xor_self⟩,
    fun a ha => ?_⟩
  obtain ⟨b, hb⟩ := exists_gmul_eq_one ha
  exact ⟨b, hb, fun _ hc => gmul_inverse_unique hc hb⟩

/-- Settles O2: the loop's sum over eight turns; the examples are closed evaluations. -/
theorem gmulSumsTheDoublings : Obligations.GmulSumsTheDoublings := by
  refine ⟨gmulLoop_eq_foldl 8 0, fun a => ⟨zero_gmul a, gmul_zero a, one_gmul a, gmul_one a⟩, ?_⟩
  decide

/-- Settles O1: a one-to-one function on the finitely many bytes is onto; the examples are closed evaluations. -/
theorem xtimeDoublesAByte : Obligations.XtimeDoublesAByte := by
  have hbij : Function.Bijective xtime := Finite.injective_iff_bijective.1 xtime_injective
  refine ⟨xtime_eq, ?_, ?_, ?_, ?_, ?_, ?_, ?_, hbij⟩ <;> decide

end Sys2Proof.Machine
end

section
/-! SUPPORT. The fixed tables and the algebra they agree with (41_tables.md R110 to R114). SBOX is met through the inverse of
AFFINE, so that one product per byte checks its entry against GINV; RCON[j + 1] is 0x01 doubled j times. Settled here: O4, O5,
O6, O7, O8. -/

namespace Sys2Proof.Machine

/-! ### GINV (R111) -/

/-- 0x00 has no inverse, so the search of GINV finds nothing. -/
theorem ginv_zero : ginv 0 = 0 := by
  have hnone (y : Byte) : ¬(gmul 0 y == 0x01) = true := by
    rw [zero_gmul]
    decide
  rw [ginv, List.find?_eq_none.2 fun y _ => hnone y, Option.getD_none]

/-- The search of GINV over all bytes finds the inverse, since there is one. -/
theorem gmul_ginv {x : Byte} (hx : x ≠ 0) : gmul x (ginv x) = 1 := by
  obtain ⟨y, hy⟩ := exists_gmul_eq_one hx
  have hmem : y ∈ (List.range 256).map (BitVec.ofNat 8) :=
    List.mem_map.2 ⟨y.toNat, List.mem_range.2 y.isLt, by simp⟩
  unfold ginv
  cases hfind : List.find? (fun y => gmul x y == 0x01) ((List.range 256).map (BitVec.ofNat 8)) with
  | none => exact absurd (beq_iff_eq.2 hy) (List.find?_eq_none.1 hfind y hmem)
  | some z => exact beq_iff_eq.1 (List.find?_some (p := fun y => gmul x y == 0x01) hfind)

theorem ginv_eq_of_gmul_eq_one {x y : Byte} (h : gmul x y = 1) : ginv x = y := by
  have hx : x ≠ 0 := by
    rintro rfl
    exact absurd (zero_gmul y ▸ h) (by decide)
  exact gmul_inverse_unique (gmul_ginv hx) h

/-- GMUL commutes, so x is the inverse of its inverse. -/
theorem ginv_ginv (x : Byte) : ginv (ginv x) = x := by
  by_cases hx : x = 0
  · rw [hx, ginv_zero, ginv_zero]
  · exact ginv_eq_of_gmul_eq_one ((gmul_comm _ _).trans (gmul_ginv hx))

/-- Settles O4: GINV(x) is an inverse of x, and there is only one. -/
theorem ginvIsTheInverse : Obligations.GinvIsTheInverse := by
  refine ⟨fun x y hx => ⟨fun h => (ginv_eq_of_gmul_eq_one h).symm, ?_⟩, ginv_zero, ginv_ginv⟩
  rintro rfl
  exact gmul_ginv hx

/-! ### AFFINE (R112) -/

/-- A left rotation by 8 - d puts bit i + d, counted modulo 8, at bit i. -/
theorem byte_rotateLeft_getLsbD (y : Byte) {r d i : Nat} (hrd : r + d = 8) (hd : 0 < d) (hi : i < 8) :
    (y.rotateLeft r).getLsbD i = y.getLsbD ((i + d) % 8) := by
  rw [BitVec.getLsbD_rotateLeft, Nat.mod_eq_of_lt (by omega)]
  by_cases h : i < r
  · have hmod : (i + d) % 8 = 8 - r + i := by omega
    rw [decide_eq_true h, cond_true, hmod]
  · have hmod : (i + d) % 8 = i - r := by omega
    simp [h, hi, hmod]

/-- Settles O5: the rotations by 4, 3, 2 and 1 bring bits i + 4, i + 5, i + 6 and i + 7 to bit i. -/
theorem affineIsTheBitEquation : Obligations.AffineIsTheBitEquation := by
  intro y i hi
  simp only [affine, BitVec.getLsbD_xor]
  rw [byte_rotateLeft_getLsbD y (r := 1) (d := 7) rfl (by decide) hi,
    byte_rotateLeft_getLsbD y (r := 2) (d := 6) rfl (by decide) hi,
    byte_rotateLeft_getLsbD y (r := 3) (d := 5) rfl (by decide) hi,
    byte_rotateLeft_getLsbD y (r := 4) (d := 4) rfl (by decide) hi, BitVec.ofNat_eq_ofNat]
  simp only [Bool.xor_assoc, Bool.xor_comm, Bool.xor_left_comm]

/-- The inverse of AFFINE (`affine_affineInv`). -/
def affineInv (z : Byte) : Byte := z.rotateLeft 1 ^^^ z.rotateLeft 3 ^^^ z.rotateLeft 6 ^^^ 0x05

theorem affine_affineInv : ∀ z : Byte, affine (affineInv z) = z := by decide +kernel

/-! ### SBOX and INVSBOX (R110, R113) -/

theorem invSbox_sbox : ∀ x : Byte, invSbox (sbox x) = x := by decide +kernel

theorem sbox_injective : Function.Injective sbox := Function.LeftInverse.injective invSbox_sbox

theorem sbox_bijective : Function.Bijective sbox := Finite.injective_iff_bijective.1 sbox_injective

/-- Every byte is an entry of SBOX, so the left inverse is a right inverse. -/
theorem sbox_invSbox (y : Byte) : sbox (invSbox y) = y := by
  obtain ⟨x, rfl⟩ := sbox_bijective.surjective y
  rw [invSbox_sbox]

/-- Settles O7: INVSBOX undoes SBOX, entry by entry, and SBOX is onto; the rule's entries are closed evaluations. -/
theorem invSboxUndoesSbox : Obligations.InvSboxUndoesSbox := by
  refine ⟨invSbox_sbox, sbox_invSbox, ?_⟩
  decide

/-- With AFFINE taken off, every entry but SBOX[0x00] is the inverse of its index. -/
theorem gmul_affineInv_sbox : ∀ x : Byte, x ≠ 0 → gmul x (affineInv (sbox x)) = 1 := by decide +kernel

theorem sbox_eq_affine_ginv (x : Byte) : sbox x = affine (ginv x) := by
  by_cases hx : x = 0
  · rw [hx, ginv_zero]
    decide
  · rw [ginv_eq_of_gmul_eq_one (gmul_affineInv_sbox x hx), affine_affineInv]

/-- Settles O6: by `sbox_eq_affine_ginv` and `sbox_bijective`; the rule's entries are closed evaluations. -/
theorem sboxIsAffineOfInverse : Obligations.SboxIsAffineOfInverse := by
  refine ⟨sbox_eq_affine_ginv, sbox_bijective, ?_⟩
  decide

/-! ### RCON (R114) -/

theorem rcon_succ_eq_xtime_iterate : ∀ j < 10, rcon (j + 1) = some (xtime^[j] 1) := by decide

theorem rcon_isSome_iff (j : Nat) : (rcon j).isSome = true ↔ 1 ≤ j ∧ j ≤ 10 := by
  cases j with
  | zero => simp [rcon]
  | succ j =>
    have hlen : rconTable.length = 10 := rfl
    simp [rcon, hlen]

theorem rcon_eq_map_xtime {j : Nat} (h2 : 2 ≤ j) (h10 : j ≤ 10) : rcon j = (rcon (j - 1)).map xtime := by
  obtain ⟨k, rfl⟩ := Nat.exists_eq_add_of_le' h2
  calc rcon (k + 1 + 1) = some (xtime^[k + 1] 1) := rcon_succ_eq_xtime_iterate _ (by omega)
    _ = some (xtime (xtime^[k] 1)) := by rw [Function.iterate_succ_apply']
    _ = (rcon (k + 1)).map xtime := by rw [rcon_succ_eq_xtime_iterate k (by omega), Option.map_some]

/-- Settles O8: RCON is XTIME repeated from 0x01; the ten entries are closed evaluations. -/
theorem rconIsRepeatedXtime : Obligations.RconIsRepeatedXtime := by
  refine ⟨?_, rfl, fun j => rcon_eq_map_xtime, rcon_isSome_iff⟩
  decide

end Sys2Proof.Machine
end

section
/-! SUPPORT. The function units of KXU, byte by byte (42_key_expansion.md R120, R121). Settled here: O9. -/

namespace Sys2Proof.Machine

theorem rotWord_of_equal_bytes {w : Word} (h : ∀ k (_ : k < 4), w[k] = w[0]) : rotWord w = w := by
  ext k hk
  rw [rotWord_getElem, h _ (Nat.mod_lt _ (by decide)), h k hk]

/-- Substituting acts byte by byte, so it may be done before or after the rotation. -/
theorem subWord_rotWord (w : Word) : subWord (rotWord w) = rotWord (subWord w) := by
  ext k hk
  simp

theorem subWord_zero : subWord #v[0x00, 0x00, 0x00, 0x00] = #v[0x63, 0x63, 0x63, 0x63] := by decide

/-- Settles O9: the bytes of ROTWORD and SUBWORD; the examples are closed evaluations. -/
theorem rotwordAndSubwordOnBytes : Obligations.RotwordAndSubwordOnBytes := by
  refine ⟨fun w k hk => ⟨rotWord_getElem w k hk, subWord_getElem w k hk⟩, fun w => rotWord_of_equal_bytes, rfl,
    subWord_zero, ?_⟩
  decide

end Sys2Proof.Machine
end

section
/-! SUPPORT. The bytes of what MemRead answers, and a round key as four schedule words (20_memory.md R52, 42_key_expansion.md
R126). Settled here: O11. -/

namespace Sys2Proof.Machine

/-- Byte k of what MemRead(a, n) answers is the KS byte at a + k (20_memory.md R51). -/
theorem memRead_getElem {m : Memory} {a n : Nat} {v : Vector Byte n} (h : memRead m a n = some v) (k : Nat)
    (hk : k < n) : v[k] = readByte m (a + k) := by
  have hb : a + n ≤ Config.ksBytes := memRead_isSome_iff.1 (Option.isSome_iff_exists.2 ⟨v, h⟩)
  obtain rfl := Option.some.inj ((memRead_eq hb).symm.trans h)
  rw [Vector.getElem_ofFn]

theorem ksw_getElem {m : Memory} {i : Nat} {w : Word} (h : ksw m i = some w) (k : Nat) (hk : k < 4) :
    w[k] = readByte m (4 * i + k) := memRead_getElem h k hk

/-- Settles O11: byte 4c + q of round key r and byte q of schedule word 4r + c are the same KS byte. -/
theorem roundKeyIsFourWords : Obligations.RoundKeyIsFourWords := by
  intro m r hr
  refine ⟨_, roundKey_eq hr, fun c hc => ⟨_, ksw_eq (by omega), fun q hq => ?_⟩⟩
  have haddr : 16 * r + (4 * c + q) = 4 * (4 * r + c) + q := by omega
  simp [haddr]

end Sys2Proof.Machine
end

section
/-! SUPPORT. Prog(KEYLOAD), place by place (42_key_expansion.md R125). Settled here: O42. -/

namespace Sys2Proof.Machine

theorem progKeyload_length (nk : Nat) : (progKeyload nk).length = 4 * (nk + 7) := by
  simp only [progKeyload, List.length_append, List.length_map, List.length_range, List.length_range']
  omega

/-- Settles O42: every place below the length holds a micro-op, and `progKeyload_getElem?` says which. -/
theorem keyloadProgIsKeyExpansion : Obligations.KeyloadProgIsKeyExpansion := by
  intro nk _
  refine ⟨progKeyload_length nk, fun n hn => ?_⟩
  have hget := List.getElem?_eq_getElem (show n < (progKeyload nk).length by rw [progKeyload_length]; omega)
  rw [hget]
  rcases progKeyload_getElem? hget with ⟨hlt, hi⟩ | ⟨hge, hi⟩
  · rw [hi, if_pos hlt]
  · rw [hi, if_neg (by omega)]

end Sys2Proof.Machine
end

section
/-! SUPPORT. KXINIT (42_key_expansion.md R123): a write of one word to KS read byte by byte, and two such writes in either
order. Settled here: O27. -/

namespace Sys2Proof.Machine

theorem encode_kxinit (i : BitVec 6) : encode (.kxinit i) = .microOp (0x2C0 + i.setWidth 10) := by
  have hword : ∀ i : BitVec 6, 0xB#4 ++ i = (0x2C0 + i.setWidth 10 : BitVec 10) := by decide
  exact congrArg Encoded.microOp (hword i)

/-- Every KS byte after schedule word n is written. -/
theorem readByte_memWrite_word {m m' : Memory} {n : Nat} {w : Word} (hm : Memory.wf m = true)
    (h : memWrite m (4 * n) w = some m') (x : Nat) :
    readByte m' x = if x / 4 = n then w[x % 4] else readByte m x := by
  obtain ⟨-, hother, hw⟩ := memWrite_spec h
  split_ifs with hx
  · subst hx
    have hread := (hw hm).2 (x % 4) (by omega)
    rwa [Nat.div_add_mod] at hread
  · exact hother x (by omega)

/-- Words i and j of a table, written to KS in either order, give the same KS. -/
theorem memWrite_word_comm {f : Nat → Word} {i j : Nat} {m mi mij mj mji : Memory} (hm : Memory.wf m = true)
    (hi : memWrite m (4 * i) (f i) = some mi) (hij : memWrite mi (4 * j) (f j) = some mij)
    (hj : memWrite m (4 * j) (f j) = some mj) (hji : memWrite mj (4 * i) (f i) = some mji) : mji = mij := by
  obtain ⟨hmi, -⟩ := (memWrite_spec hi).2.2 hm
  obtain ⟨hmj, -⟩ := (memWrite_spec hj).2.2 hm
  refine wfFrom_ext ((memWrite_spec hji).2.2 hmj).1 ((memWrite_spec hij).2.2 hmi).1 fun x => ?_
  rw [readByte_memWrite_word hmj hji, readByte_memWrite_word hm hj, readByte_memWrite_word hmi hij,
    readByte_memWrite_word hm hi]
  split_ifs with hxi hxj
  · rw [← hxi, ← hxj]
  all_goals rfl

theorem exec_kxinit_comm {s t u v v' : State} {i j : BitVec 6} (hm : Memory.wf s.ks = true)
    (ht : exec (.kxinit i) s = .next t) (hv : exec (.kxinit j) t = .next v)
    (hu : exec (.kxinit j) s = .next u) (hv' : exec (.kxinit i) u = .next v') : v' = v := by
  obtain ⟨-, mi, hi, rfl⟩ := execKxinit_next.1 ht
  obtain ⟨-, mij, hij, rfl⟩ := execKxinit_next.1 hv
  obtain ⟨-, mj, hj, rfl⟩ := execKxinit_next.1 hu
  obtain ⟨-, mji, hji, rfl⟩ := execKxinit_next.1 hv'
  obtain rfl := memWrite_word_comm (f := inWord s.inBuf) hm hi hij hj hji
  rfl

/-- KXINIT i, for i below Nk, answers a next state in which only KS may differ. -/
theorem exec_kxinit_below {s : State} {i : BitVec 6} (hi : i.toNat < s.nk.toNat) (hnk : s.nk.toNat ≤ 8) :
    ∃ t, exec (.kxinit i) s = .next t ∧ t = { s with ks := t.ks } ∧
      memWrite s.ks (4 * i.toNat) (inWord s.inBuf i.toNat) = some t.ks := by
  have hlegal : microOpLegal s.nk (.kxinit i) = true := microOpLegal_kxinit.2 ⟨hi, by omega⟩
  obtain ⟨t, ht⟩ := exec_microOp_next hlegal
  obtain ⟨-, m, hm, rfl⟩ := execKxinit_next.1 ht
  exact ⟨_, ht, rfl, hm⟩

/-- Settles O27: KXINIT writes one word of IN to KS, and words are written in either order. -/
theorem kxinitCopiesKeyWord : Obligations.KxinitCopiesKeyWord := by
  intro s i hi hnk hwf
  obtain ⟨t, ht, hframe, hw⟩ := exec_kxinit_below hi hnk
  have htnk : t.nk = s.nk := by rw [hframe]
  refine ⟨encode_kxinit i, fun j hj => ?_, t, ht, hframe, ?_⟩
  · obtain ⟨u, hu, huframe, -⟩ := exec_kxinit_below hj hnk
    have hunk : u.nk = s.nk := by rw [huframe]
    obtain ⟨v, hv, -⟩ := exec_kxinit_below (s := t) (i := j) (by rwa [htnk]) (by rwa [htnk])
    obtain ⟨v', hv', -⟩ := exec_kxinit_below (s := u) (i := i) (by rwa [hunk]) (by rwa [hunk])
    exact ⟨t, u, v, ht, hv, hu, exec_kxinit_comm hwf ht hv hu hv' ▸ hv'⟩
  · obtain ⟨-, hother, hbytes⟩ := memWrite_spec hw
    obtain ⟨hwf', hword⟩ := hbytes hwf
    exact ⟨hwf', fun k hk hb => by rw [hword k hk, inWord_getElem _ _ _ hk hb], hother⟩

end Sys2Proof.Machine
end

section
/-! SUPPORT. KXSTEP (42_key_expansion.md R124): its temporary word, one lemma per branch, and what the micro-op does to TMP and
KS. Settled here: O28. -/

namespace Sys2Proof.Machine

theorem encode_kxstep (i : BitVec 6) : encode (.kxstep i) = .microOp (0x300 + i.setWidth 10) := by
  have hword : ∀ i : BitVec 6, 0xC#4 ++ i = (0x300 + i.setWidth 10 : BitVec 10) := by decide
  exact congrArg Encoded.microOp (hword i)

/-! ### The temporary word -/

/-- A word rotated and substituted, with a round constant added to its first byte (`kxTemp_of_mod_eq_zero`). -/
def rconWord (w : Word) (rc : Byte) : Word := #v[sbox w[1] ^^^ rc, sbox w[2], sbox w[3], sbox w[0]]

theorem kxTemp_of_mod_eq_zero {nk i : Nat} (h : i % nk = 0) (w : Word) :
    kxTemp nk i w = (rcon (i / nk)).map (rconWord w) := by
  rw [kxTemp, if_pos h]
  rfl

theorem kxTemp_of_mod_eq_four {nk i : Nat} (h0 : i % nk ≠ 0) (h4 : nk > 6 ∧ i % nk = 4) (w : Word) :
    kxTemp nk i w = some (subWord w) := by
  rw [kxTemp, if_neg h0, if_pos h4]

theorem kxTemp_of_other {nk i : Nat} (h0 : i % nk ≠ 0) (h4 : ¬(nk > 6 ∧ i % nk = 4)) (w : Word) :
    kxTemp nk i w = some w := by
  rw [kxTemp, if_neg h0, if_neg h4]

/-! ### The micro-op -/

/-- All that KXSTEP i does: TMP from word i-1, the XOR of word i-Nk and TMP to word i, and nothing else. -/
theorem exec_kxstep_spec {s t : State} {i : BitVec 6} (h : exec (.kxstep i) s = .next t) :
    t = { s with tmp := t.tmp, ks := t.ks } ∧
      ∃ prev old, ksw s.ks (i.toNat - 1) = some prev ∧ ksw s.ks (i.toNat - s.nk.toNat) = some old ∧
        kxTemp s.nk.toNat i.toNat prev = some t.tmp ∧
        memWrite s.ks (4 * i.toNat) (xorBytes old t.tmp) = some t.ks := by
  obtain ⟨-, w, m, hr, rfl⟩ := execKxstep_next.1 h
  exact ⟨rfl, kxStepResult_spec hr⟩

theorem exec_kxstep_next {s : State} {i : BitVec 6} (hn : nkLegal s.nk = true) (hlo : s.nk.toNat ≤ i.toNat)
    (hhi : i.toNat < 4 * (s.nk.toNat + 7)) : ∃ t, exec (.kxstep i) s = .next t :=
  exec_microOp_next (microOpLegal_kxstep.2 ⟨hn, hlo, hhi⟩)

/-- Settles O28: TMP branch by branch, its bytes read from word i-1; KS by the write of word i. -/
theorem kxstepDerivesScheduleWord : Obligations.KxstepDerivesScheduleWord := by
  refine ⟨subWord_rotWord, subWord_zero, fun s i hn hlo hhi hwf => ⟨encode_kxstep i, ?_⟩⟩
  obtain ⟨t, ht⟩ := exec_kxstep_next hn hlo hhi
  obtain ⟨hframe, prev, old, hprev, hold, htmp, hw⟩ := exec_kxstep_spec ht
  obtain ⟨-, hother, hbytes⟩ := memWrite_spec hw
  obtain ⟨hwf', hword⟩ := hbytes hwf
  have hp := ksw_getElem hprev
  refine ⟨t, ht, hframe, hwf', fun h0 => ?_, fun h0 h4 k hk => ?_, fun h0 h4 k hk => ?_, fun k hk => ?_, hother⟩
  · rw [kxTemp_of_mod_eq_zero h0, Option.map_eq_some_iff] at htmp
    obtain ⟨rc, hrc, htmp⟩ := htmp
    exact ⟨rc, hrc, by simp [← htmp, rconWord, hp]⟩
  · have htmp := Option.some.inj ((kxTemp_of_mod_eq_four h0 h4 prev).symm.trans htmp)
    rw [← htmp, subWord_getElem, hp]
  · have htmp := Option.some.inj ((kxTemp_of_other h0 h4 prev).symm.trans htmp)
    rw [← htmp, hp]
  · rw [hword k hk, xorBytes_getElem, ksw_getElem hold]

end Sys2Proof.Machine
end

section
/-! SUPPORT. Which round constants KXSTEP reads (42_key_expansion.md R130). Settled here: O29. -/

namespace Sys2Proof.Machine

/-- RCON has no entry twice. -/
theorem rcon_inj {j k : Nat} (hj : (rcon j).isSome = true) (h : rcon j = rcon k) : j = k := by
  obtain ⟨hj1, hj10⟩ := (rcon_isSome_iff j).1 hj
  obtain ⟨hk1, hk10⟩ := (rcon_isSome_iff k).1 (h ▸ hj)
  have hall : ∀ j < 11, ∀ k < 11, 1 ≤ j → rcon j = rcon k → j = k := by decide
  exact hall j (by omega) k (by omega) hj1 h

theorem rconWord_injective (w : Word) : Function.Injective (rconWord w) := by
  intro rc rc' h
  have h0 : (rconWord w rc)[0] = (rconWord w rc')[0] := by rw [h]
  simpa [rconWord] using h0

/-- The temporary word of KXSTEP i is the rotated and substituted word with RCON[j] added, whatever the word. -/
def UsesRcon (nk i j : Nat) : Prop := ∀ w : Word, kxTemp nk i w = (rcon j).map (rconWord w)

/-- The word 00 00 01 00 tells the branches apart: with no round constant byte 1 of TMP does not come from byte 2. -/
theorem not_usesRcon_of_mod_ne_zero {nk i j : Nat} (h0 : i % nk ≠ 0) : ¬UsesRcon nk i j := by
  intro h
  have hw := h #v[0x00, 0x00, 0x01, 0x00]
  by_cases h4 : nk > 6 ∧ i % nk = 4
  · obtain ⟨rc, -, hrc⟩ := Option.map_eq_some_iff.1 (hw.symm.trans (kxTemp_of_mod_eq_four h0 h4 _))
    exact absurd (congrArg (·[1]) hrc) (show sbox 0x01 ≠ sbox 0x00 by decide)
  · obtain ⟨rc, -, hrc⟩ := Option.map_eq_some_iff.1 (hw.symm.trans (kxTemp_of_other h0 h4 _))
    exact absurd (congrArg (·[1]) hrc) (show sbox 0x01 ≠ 0x00 by decide)

/-- KXSTEP i uses RCON[j] exactly when i mod Nk = 0 and j = i / Nk. -/
theorem usesRcon_iff {nk i j : Nat} (hnk : nk = 4 ∨ nk = 6 ∨ nk = 8) (hlo : nk ≤ i) (hhi : i < 4 * (nk + 7)) :
    UsesRcon nk i j ↔ i % nk = 0 ∧ j = i / nk := by
  constructor
  · intro h
    have h0 : i % nk = 0 := by
      by_contra h0
      exact not_usesRcon_of_mod_ne_zero h0 h
    have hrcon := (kxTemp_of_mod_eq_zero h0 #v[0, 0, 0, 0]).symm.trans (h _)
    exact ⟨h0, (rcon_inj ((rcon_isSome_iff _).2 (rcon_index_range hnk hlo hhi))
      (Option.map_injective (rconWord_injective _) hrcon)).symm⟩
  · rintro ⟨h0, rfl⟩ w
    exact kxTemp_of_mod_eq_zero h0 w

/-- The multiples of Nk among Nk .. 4(Nr+1)-1, divided by Nk. -/
theorem rcon_index_iff {nk : BitVec 4} (hn : nkLegal nk = true) (j : Nat) :
    (nk.toNat ≤ nk.toNat * j ∧ nk.toNat * j < 4 * (nk.toNat + 7)) ↔
      1 ≤ j ∧ ((nk = 4 ∧ j ≤ 10) ∨ (nk = 6 ∧ j ≤ 8) ∨ (nk = 8 ∧ j ≤ 7)) := by
  rcases nkLegal_cases hn with rfl | rfl | rfl <;> simp <;> omega

/-- Of the key sizes only 8 has the second branch. -/
theorem kxTemp_of_mod_ne_zero {nk : BitVec 4} {i : Nat} (hn : nkLegal nk = true) (h0 : i % nk.toNat ≠ 0) (w : Word) :
    kxTemp nk.toNat i w = some (if nk = 8 ∧ i % 8 = 4 then subWord w else w) := by
  have hbranch : (nk.toNat > 6 ∧ i % nk.toNat = 4) ↔ (nk = 8 ∧ i % 8 = 4) := by
    rcases nkLegal_cases hn with rfl | rfl | rfl <;> simp
  split_ifs with h4
  · exact kxTemp_of_mod_eq_four h0 (hbranch.2 h4) w
  · exact kxTemp_of_other h0 (mt hbranch.1 h4) w

/-- Settles O29: a KXSTEP of Prog(KEYLOAD) is one from Nk to 4(Nr+1)-1, and of those `usesRcon_iff` picks the multiples of Nk. -/
theorem rconIndicesOfKxstep : Obligations.RconIndicesOfKxstep := by
  intro nk hn
  have hnk := nkLegal_toNat hn
  have hmem (a : BitVec 6) := kxstep_mem_progKeyload (nk := nk.toNat) (by omega) a
  refine ⟨fun a ha => ?_, fun j => ⟨?_, fun hj => ?_⟩⟩
  · obtain ⟨hlo, hhi⟩ := (hmem a).1 ha
    refine ⟨?_, fun j => usesRcon_iff hnk hlo hhi, fun h0 w => ?_⟩
    · rintro s rfl
      obtain ⟨t, ht⟩ := exec_kxstep_next hn hlo hhi
      obtain ⟨-, prev, -, hprev, -, htmp, -⟩ := exec_kxstep_spec ht
      exact ⟨t, prev, ht, hprev, htmp⟩
    · exact kxTemp_of_mod_ne_zero hn h0 w
  · rintro ⟨a, ha, huse⟩
    obtain ⟨hlo, hhi⟩ := (hmem a).1 ha
    obtain ⟨h0, rfl⟩ := (usesRcon_iff hnk hlo hhi).1 huse
    have hmul : nk.toNat * (a.toNat / nk.toNat) = a.toNat := Nat.mul_div_cancel' (Nat.dvd_of_mod_eq_zero h0)
    exact (rcon_index_iff hn _).1 (by rw [hmul]; exact ⟨hlo, hhi⟩)
  · obtain ⟨hlo, hhi⟩ := (rcon_index_iff hn j).2 hj
    have ha : (BitVec.ofNat 6 (nk.toNat * j)).toNat = nk.toNat * j := by
      rw [BitVec.toNat_ofNat, Nat.mod_eq_of_lt (by omega)]
    refine ⟨.ofNat 6 (nk.toNat * j), (hmem _).2 (by rw [ha]; exact ⟨hlo, hhi⟩), ?_⟩
    rw [ha]
    exact (usesRcon_iff hnk hlo hhi).2 ⟨Nat.mul_mod_right _ _, (Nat.mul_div_cancel_left j (by omega)).symm⟩

end Sys2Proof.Machine
end

section
/-! SUPPORT. The frame of the micro-ops (20_memory.md R57). Settled here: O31. -/

namespace Sys2Proof.Machine

theorem setSt_frame (s : State) (b : Block) :
    setSt s b = { s with st := (setSt s b).st } ∧ ∀ a, readByte (setSt s b).ks a = readByte s.ks a :=
  ⟨rfl, fun _ => rfl⟩

/-- Settles O31: KXINIT and KXSTEP write one word of KS by MemWrite; the others set one register. -/
theorem microOpsChangeOnlyTheirTargets : Obligations.MicroOpsChangeOnlyTheirTargets := by
  intro i s t h
  cases i with
  | keyload _ _ | encrypt _ _ | decrypt _ _ => trivial
  | kxinit w =>
    obtain ⟨-, m, hm, rfl⟩ := execKxinit_next.1 h
    exact ⟨rfl, (memWrite_spec hm).2.1⟩
  | kxstep w =>
    obtain ⟨hframe, _, _, -, -, -, hw⟩ := exec_kxstep_spec h
    exact ⟨hframe, (memWrite_spec hw).2.1⟩
  | addroundkey r =>
    obtain ⟨-, rfl⟩ := execAddroundkey_next.1 h
    exact setSt_frame s _
  | storeout =>
    obtain rfl := Host.Outcome.next.inj h
    exact ⟨rfl, fun _ => rfl⟩
  | _ =>
    obtain rfl := Host.Outcome.next.inj h
    exact setSt_frame s _

end Sys2Proof.Machine
end

section
/-! SUPPORT. The round micro-ops as functions on blocks: six of them replace ST by a function of ST, ADDROUNDKEY r by its XOR
with round key r (43_round_transform.md R140 to R146). Later proofs run them by these lemmas. -/

namespace Sys2Proof.Machine

theorem setSt_setSt (s : State) (b b' : Block) : setSt (setSt s b) b' = setSt s b' := rfl

theorem setSt_self (s : State) : setSt s s.st = s := rfl

/-- The micro-op `i` answers a next state in every state: the one with ST replaced by `f` of ST. -/
def MapsSt (i : Instr) (f : Block → Block) : Prop := ∀ s, exec i s = .next (setSt s (f s.st))

theorem mapsSt_subbytes : MapsSt .subbytes subBytes := fun _ => rfl
theorem mapsSt_invsubbytes : MapsSt .invsubbytes invSubBytes := fun _ => rfl
theorem mapsSt_shiftrows : MapsSt .shiftrows shiftRows := fun _ => rfl
theorem mapsSt_invshiftrows : MapsSt .invshiftrows invShiftRows := fun _ => rfl
theorem mapsSt_mixcolumns : MapsSt .mixcolumns mixColumns := fun _ => rfl
theorem mapsSt_invmixcolumns : MapsSt .invmixcolumns invMixColumns := fun _ => rfl

theorem MapsSt.st_eq {i : Instr} {f : Block → Block} (hi : MapsSt i f) {s t : State} (ht : exec i s = .next t) :
    t.st = f s.st := by
  obtain rfl := Host.Outcome.next.inj ((hi s).symm.trans ht)
  rfl

/-- A micro-op undoes another when its function on blocks does. -/
theorem MapsSt.undoes {i j : Instr} {f g : Block → Block} (hi : MapsSt i f) (hj : MapsSt j g)
    (h : ∀ b, g (f b) = b) (s : State) : ∃ t, exec i s = .next t ∧ exec j t = .next s := by
  refine ⟨_, hi s, ?_⟩
  rw [hj, setSt_st, h, setSt_setSt, setSt_self]

/-- Two micro-ops commute when their functions on blocks do. -/
theorem MapsSt.commute {i j : Instr} {f g : Block → Block} (hi : MapsSt i f) (hj : MapsSt j g)
    (h : ∀ b, f (g b) = g (f b)) (s : State) :
    ∃ t u v, exec i s = .next t ∧ exec j t = .next v ∧ exec j s = .next u ∧ exec i u = .next v := by
  refine ⟨_, _, _, hi s, hj _, hj s, ?_⟩
  simp only [hi (setSt s _), setSt_st, setSt_setSt, h]

/-! ### ADDROUNDKEY -/

theorem exec_addroundkey {s : State} {r : BitVec 6} (h : microOpLegal s.nk (.addroundkey r) = true) :
    exec (.addroundkey r) s = .next (setSt s (xorBytes s.st (keyOf s.ks r.toNat))) :=
  execAddroundkey_next.2 ⟨h, rfl⟩

/-- XOR with the same round key a second time takes it off again. -/
theorem exec_addroundkey_twice {s : State} {r : BitVec 6} (h : microOpLegal s.nk (.addroundkey r) = true) :
    exec (.addroundkey r) (setSt s (xorBytes s.st (keyOf s.ks r.toNat))) = .next s := by
  have hlegal : microOpLegal (setSt s (xorBytes s.st (keyOf s.ks r.toNat))).nk (.addroundkey r) = true := h
  rw [exec_addroundkey hlegal, setSt_st, setSt_ks, xorBytes_cancel_right, setSt_setSt, setSt_self]

@[simp] theorem keyOf_getElem (m : Memory) (r j : Nat) (hj : j < 16) : (keyOf m r)[j] = readByte m (16 * r + j) := by
  simp [keyOf]

theorem encode_addroundkey (r : BitVec 6) : encode (.addroundkey r) = .microOp (0x040 + r.setWidth 10) := by
  have hword : ∀ r : BitVec 6, 0x1#4 ++ r = (0x040 + r.setWidth 10 : BitVec 10) := by decide
  exact congrArg Encoded.microOp (hword r)

end Sys2Proof.Machine
end

section
/-! SUPPORT. The rows of the State matrix (43_round_transform.md R142, R143): SHIFTROWS and INVSHIFTROWS as permutations of the
sixteen places. Settled here: O18, O19. -/

namespace Sys2Proof.Machine

/-! ### Bytes that are only moved -/

theorem toList_eq_ofFn {n : Nat} (v : Vector Byte n) : v.toList = List.ofFn fun k : Fin n => v[k] := by
  rw [← Vector.toList_ofFn]
  exact congrArg Vector.toList Vector.ofFn_getElem.symm

/-- A block whose bytes are those of another, each taken from a place of its own, is a rearrangement of it. -/
theorem toList_perm_of_injective {b b' : Block} {σ : Fin 16 → Fin 16} (hσ : Function.Injective σ)
    (h : ∀ k : Fin 16, b'[k] = b[σ k]) : b'.toList.Perm b.toList := by
  rw [toList_eq_ofFn b, toList_eq_ofFn b', funext h]
  exact Equiv.Perm.ofFn_comp_perm (Equiv.ofBijective σ (Finite.injective_iff_bijective.1 hσ)) fun k => b[k]

/-- Moves along the rows do not change a State of four equal columns. -/
theorem eq_of_equal_columns {b b' : Block} {f : Fin 4 → Fin 4 → Fin 4}
    (hmove : ∀ r c, cell b' r c = cell b r (f r c))
    (heq : ∀ r c (_ : r < 4) (_ : c < 4), b[r + 4 * c] = b[r]) : b' = b := by
  apply block_ext_cell
  intro r c
  rw [hmove, cell_eq_getElem, cell_eq_getElem, heq r c r.isLt c.isLt, heq r (f r c) r.isLt (f r c).isLt]

/-! ### SHIFTROWS -/

theorem shiftRows_getElem (b : Block) (k : Nat) (hk : k < 16) : (shiftRows b)[k] = b[(5 * k) % 16] := by
  rw [getElem_eq_cell, cell_shiftRows, cell_eq_getElem]
  congr 1
  simp only [Fin.val_add]
  omega

theorem shiftRows_getElem_row (b : Block) (r c : Nat) (hr : r < 4) (hc : c < 4) :
    (shiftRows b)[r + 4 * c] = b[r + 4 * ((c + r) % 4)] := by
  rw [shiftRows_getElem]
  congr 1
  omega

theorem shiftRows_perm (b : Block) : (shiftRows b).toList.Perm b.toList :=
  toList_perm_of_injective (σ := (5 * ·)) (by decide) fun k => shiftRows_getElem b k k.isLt

/-- Settles O18: by the place each byte is taken from. -/
theorem shiftrowsRotatesRowsLeft : Obligations.ShiftrowsRotatesRowsLeft :=
  ⟨rfl, fun s => ⟨_, mapsSt_shiftrows s, rfl, shiftRows_getElem_row s.st, shiftRows_getElem s.st,
    eq_of_equal_columns (cell_shiftRows s.st), shiftRows_perm s.st⟩⟩

/-! ### INVSHIFTROWS -/

theorem invShiftRows_getElem (b : Block) (k : Nat) (hk : k < 16) : (invShiftRows b)[k] = b[(13 * k) % 16] := by
  rw [getElem_eq_cell, cell_invShiftRows, cell_eq_getElem]
  congr 1
  simp only [Fin.val_sub]
  omega

theorem invShiftRows_getElem_row (b : Block) (r c : Nat) (hr : r < 4) (hc : c < 4) :
    (invShiftRows b)[r + 4 * c] = b[r + 4 * ((c + 4 - r) % 4)] := by
  rw [invShiftRows_getElem]
  congr 1
  omega

theorem invShiftRows_perm (b : Block) : (invShiftRows b).toList.Perm b.toList :=
  toList_perm_of_injective (σ := (13 * ·)) (by decide) fun k => invShiftRows_getElem b k k.isLt

/-- Settles O19: by the place each byte is taken from; 13 is the inverse of 5 modulo 16. -/
theorem invshiftrowsRotatesRowsRight : Obligations.InvshiftrowsRotatesRowsRight :=
  ⟨rfl, fun k hk => by omega, fun s => ⟨_, mapsSt_invshiftrows s, rfl, invShiftRows_getElem_row s.st,
    invShiftRows_getElem s.st, eq_of_equal_columns (cell_invShiftRows s.st), invShiftRows_perm s.st⟩⟩

end Sys2Proof.Machine
end

section
/-! SUPPORT. The columns of the State matrix (43_round_transform.md R144, R145). Both matrices are circulants: each is given by
its row 0, the product of two is the circulant of the convolution of their rows 0, and IM is the inverse of M by one
convolution. Settled here: O20, O21. -/

namespace Sys2Proof.Machine

/-! ### The circulant of a row -/

/-- The matrix whose row 0 is `row` and whose other rows are the row above rotated one place to the right. -/
def circulant (row : Word) : Vector Word 4 :=
  Vector.ofFn fun r : Fin 4 => Vector.ofFn fun k : Fin 4 => row[(k.val + 4 - r.val) % 4]

theorem circulant_getElem (row : Word) (r k : Nat) (hr : r < 4) (hk : k < 4) :
    (circulant row)[r][k] = row[(k + 4 - r) % 4] := by
  simp [circulant]

/-- `mixWith` multiplies each column by the circulant of its row. -/
theorem mixWith_getElem (row : Word) (b : Block) (r c : Nat) (hr : r < 4) (hc : c < 4) :
    (mixWith row b)[4 * c + r] =
      gmul (circulant row)[r][0] b[4 * c] ^^^ gmul (circulant row)[r][1] b[4 * c + 1] ^^^
      gmul (circulant row)[r][2] b[4 * c + 2] ^^^ gmul (circulant row)[r][3] b[4 * c + 3] := by
  have hcell := cell_mixWith row b ⟨r, hr⟩ ⟨c, hc⟩
  have hdiff (k : Nat) : 4 - r + k = k + 4 - r := by omega
  simp only [cell_eq_getElem, Fin.getElem_fin, Fin.val_sub, hdiff] at hcell
  simp only [circulant_getElem, Nat.add_comm (4 * c), hcell]
  simp

theorem circulant_row_sum (row : Word) (r : Nat) (hr : r < 4) :
    (circulant row)[r][0] ^^^ (circulant row)[r][1] ^^^ (circulant row)[r][2] ^^^ (circulant row)[r][3] =
      row[0] ^^^ row[1] ^^^ row[2] ^^^ row[3] := by
  match r, hr with
  | 0, _ => rfl
  | 1, _ | 2, _ | 3, _ =>
    simp only [circulant_getElem, Nat.reduceAdd, Nat.reduceSub, Nat.reduceMod]
    ac_rfl

/-- A column of four equal bytes is multiplied by the sum of a row. -/
theorem mixWith_equal_column {row : Word} (hrow : row[0] ^^^ row[1] ^^^ row[2] ^^^ row[3] = 1) {b : Block} {c : Nat}
    (hc : c < 4) (h : ∀ q (_ : q < 4), b[4 * c + q] = b[4 * c]) (q : Nat) (hq : q < 4) :
    (mixWith row b)[4 * c + q] = b[4 * c + q] := by
  rw [mixWith_getElem row b q c hq hc, h 1 (by decide), h 2 (by decide), h 3 (by decide), h q hq, ← gmul_xor_left,
    ← gmul_xor_left, ← gmul_xor_left, circulant_row_sum row q hq, hrow, one_gmul]

/-! ### Products of circulants -/

/-- Row 0 of the product of two circulants, from their rows 0 (`mixWith_mixWith`). -/
def convolution (u v : Word) : Word :=
  Vector.ofFn fun d => gmul u[0] v[(d - 0 : Fin 4)] ^^^ gmul u[1] v[(d - 1 : Fin 4)] ^^^
    gmul u[2] v[(d - 2 : Fin 4)] ^^^ gmul u[3] v[(d - 3 : Fin 4)]

theorem mixWith_mixWith (u v : Word) (b : Block) : mixWith u (mixWith v b) = mixWith (convolution u v) b := by
  apply block_ext_cell
  intro r c
  match r with
  | 0 | 1 | 2 | 3 =>
    simp only [cell_mixWith, convolution, Fin.getElem_fin, Vector.getElem_ofFn, gmul_xor_left, gmul_xor_right,
      gmul_assoc, Fin.isValue, Fin.eta, Fin.reduceSub]
    ac_rfl

/-- The circulant of (01, 00, 00, 00) is the identity. -/
theorem mixWith_one (b : Block) : mixWith #v[0x01, 0x00, 0x00, 0x00] b = b := by
  have hone (a : Byte) : gmul 1#8 a = a := one_gmul a
  have hzero (a : Byte) : gmul 0#8 a = 0#8 := zero_gmul a
  apply block_ext_cell
  intro r c
  match r with
  | 0 | 1 | 2 | 3 =>
    simp only [cell_mixWith, Fin.isValue, Fin.reduceSub]
    simp [hone, hzero]

/-- IM times M is the identity over GF(2^8). -/
theorem invMixColumns_mixColumns (b : Block) : invMixColumns (mixColumns b) = b := by
  have hrow : convolution #v[0x0e, 0x0b, 0x0d, 0x09] #v[0x02, 0x03, 0x01, 0x01] = #v[0x01, 0x00, 0x00, 0x00] := by decide
  rw [invMixColumns, mixColumns, mixWith_mixWith, hrow, mixWith_one]

/-- M times IM is the identity over GF(2^8). -/
theorem mixColumns_invMixColumns (b : Block) : mixColumns (invMixColumns b) = b := by
  have hrow : convolution #v[0x02, 0x03, 0x01, 0x01] #v[0x0e, 0x0b, 0x0d, 0x09] = #v[0x01, 0x00, 0x00, 0x00] := by decide
  rw [invMixColumns, mixColumns, mixWith_mixWith, hrow, mixWith_one]

/-! ### The statements -/

theorem two_gmul (a : Byte) : gmul 2 a = xtime a := by rw [gmul_comm, gmul_two]

theorem three_gmul (a : Byte) : gmul 3 a = xtime a ^^^ a :=
  calc gmul 3 a = gmul 2 a ^^^ gmul 1 a := gmul_xor_left 2 1 a
    _ = xtime a ^^^ a := by rw [two_gmul, one_gmul]

theorem circulant_forward : circulant #v[0x02, 0x03, 0x01, 0x01] = #v[#v[0x02, 0x03, 0x01, 0x01],
    #v[0x01, 0x02, 0x03, 0x01], #v[0x01, 0x01, 0x02, 0x03], #v[0x03, 0x01, 0x01, 0x02]] := by decide

theorem circulant_inverse : circulant #v[0x0e, 0x0b, 0x0d, 0x09] = #v[#v[0x0e, 0x0b, 0x0d, 0x09],
    #v[0x09, 0x0e, 0x0b, 0x0d], #v[0x0d, 0x09, 0x0e, 0x0b], #v[0x0b, 0x0d, 0x09, 0x0e]] := by decide

/-- MIXCOLUMNS of a column, written out with XTIME. -/
theorem mixColumns_column (b : Block) (c : Nat) (hc : c < 4) :
    let a0 := b[4 * c]; let a1 := b[4 * c + 1]; let a2 := b[4 * c + 2]; let a3 := b[4 * c + 3]
    (mixColumns b)[4 * c] = xtime a0 ^^^ (xtime a1 ^^^ a1) ^^^ a2 ^^^ a3 ∧
    (mixColumns b)[4 * c + 1] = a0 ^^^ xtime a1 ^^^ (xtime a2 ^^^ a2) ^^^ a3 ∧
    (mixColumns b)[4 * c + 2] = a0 ^^^ a1 ^^^ xtime a2 ^^^ (xtime a3 ^^^ a3) ∧
    (mixColumns b)[4 * c + 3] = (xtime a0 ^^^ a0) ^^^ a1 ^^^ a2 ^^^ xtime a3 := by
  intro a0 a1 a2 a3
  have hrow (r : Nat) (hr : r < 4) := mixWith_getElem #v[0x02, 0x03, 0x01, 0x01] b r c hr hc
  have h0 : (mixColumns b)[4 * c] = gmul 2 a0 ^^^ gmul 3 a1 ^^^ gmul 1 a2 ^^^ gmul 1 a3 := hrow 0 (by decide)
  have h1 : (mixColumns b)[4 * c + 1] = gmul 1 a0 ^^^ gmul 2 a1 ^^^ gmul 3 a2 ^^^ gmul 1 a3 := hrow 1 (by decide)
  have h2 : (mixColumns b)[4 * c + 2] = gmul 1 a0 ^^^ gmul 1 a1 ^^^ gmul 2 a2 ^^^ gmul 3 a3 := hrow 2 (by decide)
  have h3 : (mixColumns b)[4 * c + 3] = gmul 3 a0 ^^^ gmul 1 a1 ^^^ gmul 1 a2 ^^^ gmul 2 a3 := hrow 3 (by decide)
  simp only [one_gmul, two_gmul, three_gmul] at h0 h1 h2 h3
  exact ⟨h0, h1, h2, h3⟩

/-- Settles O20: M is the circulant of its row 0, whose bytes sum to 01. -/
theorem mixcolumnsMultipliesByForwardMatrix : Obligations.MixcolumnsMultipliesByForwardMatrix := by
  unfold Obligations.MixcolumnsMultipliesByForwardMatrix
  intro row m
  have hm : m = circulant row := circulant_forward.symm
  refine ⟨rfl, fun r k hr hk => ?_, mixWith_xorBytes row, fun s => ⟨_, mapsSt_mixcolumns s, rfl, fun r c hr hc => ?_,
    mixColumns_column s.st, fun c hc => mixWith_equal_column (by decide) hc⟩⟩
  · simp only [hm, circulant_getElem]
  · simp only [hm, Nat.add_comm r]
    exact mixWith_getElem row s.st r c hr hc

/-- Settles O21: IM is the circulant of its row 0, whose bytes sum to 01; the two products of IM and M are the identity. -/
theorem invmixcolumnsMultipliesByInverseMatrix : Obligations.InvmixcolumnsMultipliesByInverseMatrix := by
  unfold Obligations.InvmixcolumnsMultipliesByInverseMatrix
  intro row m
  have hm : m = circulant row := circulant_inverse.symm
  refine ⟨rfl, fun r k hr hk => ?_, mixWith_xorBytes row, fun b => ⟨invMixColumns_mixColumns b, mixColumns_invMixColumns b⟩,
    fun s => ⟨_, mapsSt_invmixcolumns s, rfl, fun r c hr hc => ?_, fun c hc => mixWith_equal_column (by decide) hc⟩⟩
  · simp only [hm, circulant_getElem]
  · simp only [hm, Nat.add_comm r]
    exact mixWith_getElem row s.st r c hr hc

end Sys2Proof.Machine
end

section
/-! SUPPORT. How the round micro-ops combine (43_round_transform.md R149) and how far their effects reach (R150). Settled
here: O25, O26. -/

namespace Sys2Proof.Machine

/-! ### Inverse pairs and commuting pairs -/

theorem invSubBytes_subBytes (b : Block) : invSubBytes (subBytes b) = b := by
  refine Vector.ext fun k hk => ?_
  rw [invSubBytes_getElem, subBytes_getElem, invSbox_sbox]

theorem subBytes_invSubBytes (b : Block) : subBytes (invSubBytes b) = b := by
  refine Vector.ext fun k hk => ?_
  rw [subBytes_getElem, invSubBytes_getElem, sbox_invSbox]

theorem invShiftRows_shiftRows (b : Block) : invShiftRows (shiftRows b) = b := by
  apply block_ext_cell
  simp

theorem shiftRows_invShiftRows (b : Block) : shiftRows (invShiftRows b) = b := by
  apply block_ext_cell
  simp

/-- Substituting acts byte by byte, so it may be done before or after the bytes are moved. -/
theorem subBytes_shiftRows (b : Block) : subBytes (shiftRows b) = shiftRows (subBytes b) := by
  apply block_ext_cell
  simp

theorem invSubBytes_invShiftRows (b : Block) : invSubBytes (invShiftRows b) = invShiftRows (invSubBytes b) := by
  apply block_ext_cell
  simp

/-- Settles O25: the inverse and commuting pairs of functions on blocks; INVMIXCOLUMNS is linear. -/
theorem roundOperationsInvert : Obligations.RoundOperationsInvert := by
  refine ⟨mapsSt_subbytes.undoes mapsSt_invsubbytes invSubBytes_subBytes,
    mapsSt_invsubbytes.undoes mapsSt_subbytes subBytes_invSubBytes,
    mapsSt_shiftrows.undoes mapsSt_invshiftrows invShiftRows_shiftRows,
    mapsSt_invshiftrows.undoes mapsSt_shiftrows shiftRows_invShiftRows,
    mapsSt_mixcolumns.undoes mapsSt_invmixcolumns invMixColumns_mixColumns,
    mapsSt_invmixcolumns.undoes mapsSt_mixcolumns mixColumns_invMixColumns,
    fun r s h => ⟨_, exec_addroundkey h, exec_addroundkey_twice h⟩,
    mapsSt_subbytes.commute mapsSt_shiftrows subBytes_shiftRows,
    mapsSt_invsubbytes.commute mapsSt_invshiftrows invSubBytes_invShiftRows, fun r s h => ?_⟩
  obtain ⟨-, hr⟩ := microOpLegal_addroundkey.1 h
  exact ⟨_, _, _, _, exec_addroundkey h, mapsSt_invmixcolumns _, mapsSt_invmixcolumns s, roundKey_eq hr,
    mixWith_xorBytes _ s.st (keyOf s.ks r.toNat)⟩

/-! ### Lanes -/

/-- A column of a product depends on that column alone. -/
theorem mixWith_column_lane (row : Word) {b b' : Block} {c : Nat} (hc : c < 4)
    (h : ∀ q (_ : q < 4), b[4 * c + q] = b'[4 * c + q]) (q : Nat) (hq : q < 4) :
    (mixWith row b)[4 * c + q] = (mixWith row b')[4 * c + q] := by
  have h0 : b[4 * c] = b'[4 * c] := h 0 (by decide)
  rw [mixWith_getElem row b q c hq hc, mixWith_getElem row b' q c hq hc, h0, h 1 (by decide), h 2 (by decide),
    h 3 (by decide)]

theorem exec_addroundkey_byte {s t : State} {r : BitVec 6} (h : exec (.addroundkey r) s = .next t) (k : Nat)
    (hk : k < 16) : t.st[k] = s.st[k] ^^^ readByte s.ks (16 * r.toNat + k) := by
  obtain ⟨-, rfl⟩ := execAddroundkey_next.1 h
  simp

/-- Settles O26: each result byte, by the place of its lane that it is computed from. -/
theorem roundOperationsActOnLanes : Obligations.RoundOperationsActOnLanes := by
  refine ⟨fun s s' t t' k hk h => ?_, fun s s' t t' k hk h ht ht' => ?_, fun r s s' t t' k hk h hkey ht ht' => ?_,
    fun s s' t t' c hc h ht q hq => ?_, fun s s' t t' r hr h ht q hq => ?_⟩
  · rcases h with ⟨h, ⟨ht, ht'⟩ | ⟨ht, ht'⟩⟩ | ⟨h, ht, ht'⟩
    · simp only [mapsSt_subbytes.st_eq ht, mapsSt_subbytes.st_eq ht', subBytes_getElem, h]
    · simp only [mapsSt_invsubbytes.st_eq ht, mapsSt_invsubbytes.st_eq ht', invSubBytes_getElem, h]
    · obtain rfl := Host.Outcome.next.inj ht
      obtain rfl := Host.Outcome.next.inj ht'
      simpa using h
  · obtain rfl := Host.Outcome.next.inj ht
    obtain rfl := Host.Outcome.next.inj ht'
    exact h
  · rw [exec_addroundkey_byte ht k hk, exec_addroundkey_byte ht' k hk, h, hkey]
  · rcases ht with ⟨ht, ht'⟩ | ⟨ht, ht'⟩
    · simp only [mapsSt_mixcolumns.st_eq ht, mapsSt_mixcolumns.st_eq ht']
      exact mixWith_column_lane _ hc h q hq
    · simp only [mapsSt_invmixcolumns.st_eq ht, mapsSt_invmixcolumns.st_eq ht']
      exact mixWith_column_lane _ hc h q hq
  · rcases ht with ⟨ht, ht'⟩ | ⟨ht, ht'⟩
    · simp only [mapsSt_shiftrows.st_eq ht, mapsSt_shiftrows.st_eq ht', shiftRows_getElem_row _ r q hr hq]
      exact h _ (Nat.mod_lt _ (by decide))
    · simp only [mapsSt_invshiftrows.st_eq ht, mapsSt_invshiftrows.st_eq ht', invShiftRows_getElem_row _ r q hr hq]
      exact h _ (Nat.mod_lt _ (by decide))

end Sys2Proof.Machine
end

section
/-! SUPPORT. The micro-ops on single bytes (43_round_transform.md R140, R141, R146 to R148). Settled here: O16, O17, O22, O23,
O24. -/

namespace Sys2Proof.Machine

/-- Settles O16: the bytes of the new ST are given by `subBytes_getElem`. -/
theorem subbytesSubstitutesEveryByte : Obligations.SubbytesSubstitutesEveryByte :=
  ⟨rfl, by decide, fun s => ⟨_, mapsSt_subbytes s, rfl, subBytes_getElem s.st⟩⟩

/-- Settles O17: the bytes of the new ST are given by `invSubBytes_getElem`; INVSBOX and SBOX undo each other. -/
theorem invsubbytesSubstitutesEveryByte : Obligations.InvsubbytesSubstitutesEveryByte :=
  ⟨rfl, by decide, by decide, fun x => ⟨invSbox_sbox x, sbox_invSbox x⟩,
    fun s => ⟨_, mapsSt_invsubbytes s, rfl, invSubBytes_getElem s.st⟩⟩

/-- XOR with a block of zeros changes nothing. -/
theorem xorBytes_of_zero {n : Nat} {u v : Vector Byte n} (hv : ∀ k (_ : k < n), v[k] = 0#8) : xorBytes u v = u := by
  refine Vector.ext fun k hk => ?_
  rw [xorBytes_getElem, hv k hk, BitVec.xor_zero]

/-- Settles O22: the new ST is the XOR of ST and the round key. -/
theorem addroundkeyXorsRoundKey : Obligations.AddroundkeyXorsRoundKey := by
  intro s r hnr hr
  have hlegal := microOpLegal_addroundkey.2 ⟨hnr, hr⟩
  have ht := exec_addroundkey hlegal
  refine ⟨encode_addroundkey r, _, ht, rfl, exec_addroundkey_byte ht, exec_addroundkey_twice hlegal, fun hzero => ?_⟩
  exact xorBytes_of_zero fun j hj => (keyOf_getElem s.ks r.toNat j hj).trans (hzero j hj)

/-- Settles O23: the bytes of the new ST are given by `inBlock_getElem`. -/
theorem loadstateCopiesInputBlock : Obligations.LoadstateCopiesInputBlock :=
  ⟨rfl, fun s => ⟨setSt s (inBlock s.inBuf), rfl, rfl, inBlock_getElem s.inBuf⟩⟩

/-- Settles O24: OUT takes ST as it stands. -/
theorem storeoutCopiesState : Obligations.StoreoutCopiesState :=
  ⟨rfl, fun s => ⟨setOut s s.st, rfl, rfl, fun _ _ => rfl⟩⟩

end Sys2Proof.Machine
end

section
/-! SUPPORT. ACCEPT (44_engine.md R161): what a command begins with, as one record, and the step of an idle engine with a
whole frame at the port. Settled here: O32, O33, O34, O37. -/

namespace Sys2Proof.Machine

/-! ### The meaning of a command -/

/-- The registers a valid command begins with (44_engine.md R161). -/
theorem beginCommand_eq (op len : Byte) (p : List Byte) (s : State) :
    beginCommand op len p s =
      { s with inBuf := latch s.inBuf p, inLen := len.setWidth 6, cmd := op,
               nk := if op = 0x01 then nkOfLen len else s.nk,
               keyValid := if op = 0x01 then false else s.keyValid, upc := 0, busy := true } := rfl

theorem exec_keyload_begins {s : State} {len : Byte} {p : List Byte} (hp : p.length = len.toNat)
    (hl : len = 16 ∨ len = 24 ∨ len = 32) : exec (.keyload len p) s = .next (beginCommand 0x01 len p s) := by
  rcases execKeyload_cases (s := s) hp with ⟨-, h⟩ | ⟨hl', -⟩
  · exact h
  · rw [keyLenLegal_iff.2 hl] at hl'
    cases hl'

theorem acceptBlock_begins {s : State} {op : Byte} {p : List Byte} (hp : p.length = 16) (hk : s.keyValid = true) :
    acceptBlock op 16 p s = .next (beginCommand op 16 p s) := by
  rcases acceptBlock_cases (s := s) (op := op) (len := 16) hp with ⟨hk', -⟩ | ⟨-, -, h⟩ | ⟨-, hl, -⟩
  · simp [hk] at hk'
  · exact h
  · exact absurd rfl hl

/-- A command that answers begins or raises an error; a block command begins with its own opcode. -/
theorem exec_command_cases {s t : State} {len : Byte} {p : List Byte} {i : Instr}
    (hi : i = .keyload len p ∨ i = .encrypt len p ∨ i = .decrypt len p) (ht : exec i s = .next t) :
    (∃ op, (i ≠ .keyload len p → op ≠ 1#8) ∧ t = beginCommand op len p s) ∨ ∃ e, t = raiseError e s := by
  have block : ∀ op : Byte, op ≠ 0x01 → acceptBlock op len p s = .next t →
      (∃ op, (i ≠ .keyload len p → op ≠ 1#8) ∧ t = beginCommand op len p s) ∨ ∃ e, t = raiseError e s := by
    intro op hop h
    by_cases hp : p.length = len.toNat
    · rcases acceptBlock_cases (s := s) (op := op) hp with ⟨-, h'⟩ | ⟨-, -, h'⟩ | ⟨-, -, h'⟩ <;>
        obtain rfl := Host.Outcome.next.inj (h.symm.trans h')
      · exact .inr ⟨_, rfl⟩
      · exact .inl ⟨op, fun _ => hop, rfl⟩
      · exact .inr ⟨_, rfl⟩
    · rw [acceptBlock_malformed hp] at h
      cases h
  rcases hi with rfl | rfl | rfl
  · by_cases hp : p.length = len.toNat
    · rcases execKeyload_cases (s := s) hp with ⟨-, h'⟩ | ⟨-, h'⟩ <;>
        obtain rfl := Host.Outcome.next.inj (ht.symm.trans h')
      · exact .inl ⟨0x01, fun hne => absurd rfl hne, rfl⟩
      · exact .inr ⟨_, rfl⟩
    · rw [exec, execKeyload_malformed hp] at ht
      cases ht
  · exact block 0x02 (by decide) ht
  · exact block 0x03 (by decide) ht

/-- Settles O33: the command begins, with the registers of `beginCommand_eq`. -/
theorem keyloadBeginsOnLegalKey : Obligations.KeyloadBeginsOnLegalKey := by
  intro s len p hp hl
  refine ⟨_, exec_keyload_begins hp hl, rfl, latch_getElem s.inBuf p, ?_, ?_⟩
  · rw [hp]
    rcases hl with rfl | rfl | rfl <;> rfl
  · rw [hp]
    rcases hl with rfl | rfl | rfl <;> rfl

/-- Settles O34: the command begins, with the registers of `beginCommand_eq`. -/
theorem blockCommandBeginsOnLegalBlock : Obligations.BlockCommandBeginsOnLegalBlock := by
  intro s p hp hk i op hi
  have hexec : exec i s = acceptBlock op 16 p s := by rcases hi with ⟨rfl, rfl⟩ | ⟨rfl, rfl⟩ <;> rfl
  have hop : op ≠ 1#8 := by rcases hi with ⟨-, rfl⟩ | ⟨-, rfl⟩ <;> decide
  refine ⟨_, hexec.trans (acceptBlock_begins hp hk), ?_, latch_getElem s.inBuf p⟩
  simp [beginCommand_eq, hop]

/-- Settles O32: an error keeps every register the statement names, and a command that begins keeps IN above its payload. -/
theorem commandsChangeOnlyControl : Obligations.CommandsChangeOnlyControl := by
  intro len p i s t hi ht
  rcases exec_command_cases hi ht with ⟨op, hop, rfl⟩ | ⟨e, rfl⟩
  · refine ⟨by simp, by simp, by simp, by simp, by simp, by simp, by simp, by simp, fun k hk hpk => ?_, fun hne => ?_⟩
    · rw [beginCommand_inBuf, latch_getElem, dif_neg (by omega)]
    · simp [hop hne]
  · simp

/-! ### The step of an idle engine -/

/-- A command that waits at the port is run on the stream without its frame. -/
theorem step_command {s : State} {i : Instr} {rest : List Byte} (hs : Idle s)
    (hd : decodeFrame s.cmdPort = .command i rest) : step s = exec i (setCmdPort s rest) := by
  obtain ⟨hb, hr⟩ := hs
  simp [step, nextAction_idle hr hb, idleAction, hd]

theorem step_reservedOpcode {s : State} {op len : Byte} {rest : List Byte} (hs : Idle s)
    (hd : decodeFrame s.cmdPort = .reservedOpcode op len rest) :
    step s = .next (raiseError .illegalCommand (setCmdPort s rest)) := by
  obtain ⟨hb, hr⟩ := hs
  simp [step, nextAction_idle hr hb, idleAction, hd]

theorem commandOf_reserved {op : Byte} (len : Byte) (p : List Byte) (h1 : op ≠ 0x01) (h2 : op ≠ 0x02)
    (h3 : op ≠ 0x03) : commandOf op len p = none := by
  rw [commandOf, if_neg h1, if_neg h2, if_neg h3]

section
variable {s : State} {len : Byte} {p rest : List Byte} (hs : Idle s) (hp : p.length = len.toNat)
include hs hp

theorem step_keyloadFrame (hport : s.cmdPort = 0x01 :: len :: (p ++ rest)) :
    step s = execKeyload len p (setCmdPort s rest) := by
  have hd : decodeFrame s.cmdPort = .command (.keyload len p) rest := by rw [hport, decodeFrame_frame hp]; rfl
  exact step_command hs hd

theorem step_blockFrame {op : Byte} (hop : op = 0x02 ∨ op = 0x03) (hport : s.cmdPort = op :: len :: (p ++ rest)) :
    step s = acceptBlock op len p (setCmdPort s rest) := by
  rcases hop with rfl | rfl
  · have hd : decodeFrame s.cmdPort = .command (.encrypt len p) rest := by rw [hport, decodeFrame_frame hp]; rfl
    exact step_command hs hd
  · have hd : decodeFrame s.cmdPort = .command (.decrypt len p) rest := by rw [hport, decodeFrame_frame hp]; rfl
    exact step_command hs hd

theorem step_reservedFrame {op : Byte} (h1 : op ≠ 0x01) (h2 : op ≠ 0x02) (h3 : op ≠ 0x03)
    (hport : s.cmdPort = op :: len :: (p ++ rest)) : step s = .next (errorState 0x05 (setCmdPort s rest)) := by
  have hd : decodeFrame s.cmdPort = .reservedOpcode op len rest := by
    rw [hport, decodeFrame_frame hp, commandOf_reserved len p h1 h2 h3]
  exact step_reservedOpcode hs hd

end

/-- What a command begins with, in the terms of R161. -/
theorem beginCommand_eq_ofNat (op len : Byte) (p : List Byte) (s : State) :
    beginCommand op len p s =
      { s with inBuf := Vector.ofFn fun k : Fin 32 => if h : k.val < p.length then p[k.val] else s.inBuf[k]
               inLen := BitVec.ofNat 6 len.toNat, cmd := op,
               nk := if op = 0x01 then BitVec.ofNat 4 (len.toNat / 4) else s.nk,
               keyValid := if op = 0x01 then false else s.keyValid, upc := 0, busy := true } := by
  have hbuf : latch s.inBuf p = Vector.ofFn fun k : Fin 32 => if h : k.val < p.length then p[k.val] else s.inBuf[k] :=
    Vector.ext fun k hk => by simp
  rw [beginCommand_eq, hbuf]
  rfl

/-- Settles O37: one opcode after the other, by what its ACCEPT can answer. -/
theorem acceptMakesTheChecksInOrder : Obligations.AcceptMakesTheChecksInOrder := by
  intro s op len p rest hs hp hport s0
  by_cases h1 : op = 0x01
  · subst h1
    rw [step_keyloadFrame hs hp hport, if_neg (by decide), if_neg (fun h => absurd h.1 (by decide))]
    rcases execKeyload_cases (s := setCmdPort s rest) hp with ⟨hl, h⟩ | ⟨hl, h⟩ <;> rw [h]
    · rw [if_neg (fun h' => h'.2 (keyLenLegal_iff.1 hl)), if_neg (fun h' => absurd h'.1 (by decide)),
        beginCommand_eq_ofNat]
      rfl
    · have hlen : ¬(len = 16 ∨ len = 24 ∨ len = 32) := by rw [← keyLenLegal_iff, hl]; decide
      rw [if_pos ⟨rfl, hlen⟩]
      rfl
  by_cases h23 : op = 0x02 ∨ op = 0x03
  · rw [step_blockFrame hs hp h23 hport, if_neg (by tauto)]
    rcases acceptBlock_cases (s := setCmdPort s rest) (op := op) hp with ⟨hk, h⟩ | ⟨hk, hl, h⟩ | ⟨hk, hl, h⟩ <;>
      rw [setCmdPort_keyValid] at hk <;> rw [h]
    · rw [if_pos ⟨h23, hk⟩]
      rfl
    · rw [if_neg (by simp [hk]), if_neg (fun h' => h1 h'.1), if_neg (fun h' => h'.2 hl), beginCommand_eq_ofNat]
      rfl
    · rw [if_neg (by simp [hk]), if_neg (fun h' => h1 h'.1), if_pos ⟨h23, hl⟩]
      rfl
  · obtain ⟨h2, h3⟩ := not_or.1 h23
    rw [if_pos ⟨h1, h2, h3⟩]
    exact step_reservedFrame hs hp h1 h2 h3 hport

end Sys2Proof.Machine
end

section
/-! SUPPORT. The step of a busy engine (44_engine.md R160, R165, R166), and that its control flow does not depend on data
(R174). Settled here: O40, O41, O51. -/

namespace Sys2Proof.Machine

theorem complete_keyload {s : State} (hc : s.cmd = 1#8) :
    complete s = { s with status := 0x00, keyValid := true, busy := false,
                          responses := s.responses ++ [⟨0x00, 0, []⟩] } := by
  simp [complete, completeFlags, emit, hc]

theorem complete_block {s : State} (hc : s.cmd ≠ 1#8) :
    complete s = { s with status := 0x00, busy := false, responses := s.responses ++ [⟨0x00, 16, s.out.toList⟩] } := by
  simp [complete, completeFlags, emit, hc]

/-- Settles O40: the step is COMPLETE. -/
theorem completeEndsTheCommand : Obligations.CompleteEndsTheCommand := by
  intro s p hb hr hp hl
  refine ⟨fun hc => (step_complete hr hb hp hl).trans ?_, fun hc => (step_complete hr hb hp hl).trans ?_⟩
  · rw [complete_keyload hc]
  · rw [complete_block hc]

/-- With BUSY = 1 a word that decodes is run, whatever micro-op it encodes. -/
theorem step_decodedWord {s : State} {p : List Instr} {i j : Instr} {mw : BitVec 10} (hb : s.busy = true)
    (hr : s.resetReq = false) (hp : prog s.cmd s.nk = some p) (hi : p[s.upc.toNat]? = some i)
    (he : encode i = .microOp mw) (hd : decodeMicroOp s.nk mw = .ok j) : step s = finishExec (exec j s) := by
  simp [step, nextAction_busy hr hb, busyAction, hp, hi, he, hd]

/-- Settles O41: EXEC by `step_decodedWord`, ACCEPT by `step_command`. -/
theorem stepRunsTheDecodedInstruction : Obligations.StepRunsTheDecodedInstruction := by
  refine ⟨fun s p i j mw hb hr hp hi he hd => ?_, fun s i rest hs hd => step_command hs hd⟩
  have hstep := step_decodedWord hb hr hp hi he hd
  refine ⟨hstep, fun t ht => ?_⟩
  rw [hstep, ht]
  rfl

/-- Settles O51: which case of `StepTo` a busy state is in depends on the registers the two states agree on, and none of its
cases writes them from anything else. -/
theorem controlFlowIgnoresData : Obligations.ControlFlowIgnoresData := by
  rintro s s' t ⟨hbusy, hcmd, hnk, hupc, hkv, hreset⟩ hb ht
  have hb' : s'.busy = true := hbusy ▸ hb
  cases stepTo_of_step ht with
  | reset hr =>
    refine ⟨takeReset s', ?_, by simp⟩
    rw [step, nextAction_reset (hreset ▸ hr)]
  | idle _ hidle | error _ hidle | beginKeyload _ hidle | beginBlock _ hidle => simp [hb] at hidle
  | exec hr _ p i u hp hi hleg hu =>
    have hleg' : microOpLegal s'.nk i = true := hnk ▸ hleg
    obtain ⟨u', hu'⟩ := exec_microOp_next hleg'
    have hstep : step s' = finishExec (exec i s') :=
      step_exec (hreset ▸ hr) hb' (hcmd ▸ hnk ▸ hp) (hupc ▸ hi)
    obtain ⟨-, -, hunk, hukv, hub, hucmd, huupc, -, -, -, hur, -⟩ := exec_microOp_fields hleg hu
    obtain ⟨-, -, hunk', hukv', hub', hucmd', huupc', -, -, -, hur', -⟩ := exec_microOp_fields hleg' hu'
    refine ⟨advanceUpc u', by rw [hstep, hu']; rfl, ?_⟩
    simp [hub, hub', hucmd, hucmd', hunk, hunk', huupc, huupc', hukv, hukv', hur, hur', hbusy, hcmd, hnk, hupc, hkv,
      hreset]
  | complete hr _ p hp hl =>
    refine ⟨complete s', step_complete (hreset ▸ hr) hb' (hcmd ▸ hnk ▸ hp) (hupc ▸ hl), ?_⟩
    simp [hcmd, hnk, hupc, hkv, hreset]

end Sys2Proof.Machine
end

section
/-! SUPPORT. Prog(ENCRYPT) and Prog(DECRYPT), place by place, for every number of rounds (44_engine.md R163, R164). Settled
here: O43, O44. -/

namespace Sys2Proof.Machine

/-! ### Lists made of equally long parts -/

section
variable {α β : Type} {f : α → List β} {n : Nat} (hf : ∀ a, (f a).length = n)
include hf

theorem length_flatMap_of_const (l : List α) : (l.flatMap f).length = n * l.length := by
  simp [List.length_flatMap, hf, Nat.mul_comm]

/-- Place n * k + j of the parts one after another is place j of part k, also with more behind them. -/
theorem getElem?_flatMap_append {l : List α} {a : α} {k j : Nat} (rest : List β) (hk : l[k]? = some a) (hj : j < n) :
    (l.flatMap f ++ rest)[n * k + j]? = (f a)[j]? := by
  induction l generalizing k with
  | nil => simp at hk
  | cons b l ih =>
    rw [List.flatMap_cons, List.append_assoc]
    cases k with
    | zero =>
      obtain rfl : b = a := by simpa using hk
      rw [Nat.mul_zero, Nat.zero_add, List.getElem?_append_left (by rw [hf]; exact hj)]
    | succ k =>
      have hplace : n * (k + 1) + j = (f b).length + (n * k + j) := by rw [hf, Nat.mul_succ]; omega
      rw [hplace, List.getElem?_append_right (by omega), Nat.add_sub_cancel_left]
      exact ih (by simpa using hk)

end

/-! ### Prog(ENCRYPT) -/

theorem roundOps_length (r : Nat) : (roundOps r).length = 4 := rfl

theorem progEncrypt_eq (nr : Nat) :
    progEncrypt nr =
      [Instr.loadstate, Instr.addroundkey 0] ++
        ((List.range' 1 (nr - 1)).flatMap roundOps ++ (finalRoundOps nr ++ [Instr.storeout])) := by
  simp [progEncrypt]

theorem progEncrypt_length {nr : Nat} (h : 1 ≤ nr) : (progEncrypt nr).length = 4 * nr + 2 := by
  simp only [progEncrypt_eq, List.length_append, length_flatMap_of_const roundOps_length, List.length_range',
    finalRoundOps, List.length_cons, List.length_nil]
  omega

/-- The four micro-ops of round r stand from place 4(r-1) + 2 on. -/
theorem progEncrypt_round {nr r i : Nat} (j : Nat) (h1 : 1 ≤ r) (hr : r ≤ nr - 1) (hj : j < 4)
    (hi : i = 4 * (r - 1) + 2 + j) : (progEncrypt nr)[i]? = (roundOps r)[j]? := by
  have hk : (List.range' 1 (nr - 1))[r - 1]? = some r := by
    rw [List.getElem?_range' (by omega)]
    congr 1
    omega
  rw [progEncrypt_eq, ← getElem?_flatMap_append roundOps_length (finalRoundOps nr ++ [Instr.storeout]) hk hj, hi,
    Nat.add_right_comm]
  rfl

/-- The final round and STOREOUT stand from place 4Nr - 2 on. -/
theorem progEncrypt_final {nr i : Nat} (j : Nat) (h : 1 ≤ nr) (hi : i = 4 * nr - 2 + j) :
    (progEncrypt nr)[i]? = (finalRoundOps nr ++ [Instr.storeout])[j]? := by
  have hlen : ((List.range' 1 (nr - 1)).flatMap roundOps).length = 4 * (nr - 1) := by
    rw [length_flatMap_of_const roundOps_length, List.length_range']
  have hplace : i = [Instr.loadstate, Instr.addroundkey 0].length + (4 * (nr - 1) + j) := by
    rw [hi, List.length_cons, List.length_singleton]
    omega
  rw [progEncrypt_eq, hplace, List.getElem?_append_right (Nat.le_add_right ..), Nat.add_sub_cancel_left, ← hlen,
    List.getElem?_append_right (Nat.le_add_right ..), Nat.add_sub_cancel_left]

/-- Settles O43: the first two places by evaluation, the others by `progEncrypt_round` and `progEncrypt_final`. -/
theorem encryptProgIsTheRoundSequence : Obligations.EncryptProgIsTheRoundSequence := by
  intro nr hnr
  have h : 1 ≤ nr := by omega
  refine ⟨progEncrypt_length h, rfl, rfl, fun r h1 hr => ⟨?_, ?_, ?_, ?_⟩, ?_, ?_, ?_, ?_⟩
  · exact (progEncrypt_round 0 h1 hr (by decide) rfl).trans rfl
  · exact (progEncrypt_round 1 h1 hr (by decide) rfl).trans rfl
  · exact (progEncrypt_round 2 h1 hr (by decide) rfl).trans rfl
  · exact (progEncrypt_round 3 h1 hr (by decide) rfl).trans rfl
  · exact (progEncrypt_final 0 h rfl).trans rfl
  · exact (progEncrypt_final 1 h (by omega)).trans rfl
  · exact (progEncrypt_final 2 h (by omega)).trans rfl
  · exact (progEncrypt_final 3 h (by omega)).trans rfl

/-! ### Prog(DECRYPT) -/

/-- The micro-op that undoes a micro-op of the datapath (43_round_transform.md R149); ADDROUNDKEY undoes itself. -/
def inverseOp : Instr → Instr
  | .subbytes => .invsubbytes
  | .shiftrows => .invshiftrows
  | .mixcolumns => .invmixcolumns
  | j => j

theorem invRoundOps_length (r : Nat) : (invRoundOps r).length = 4 := rfl

/-- A round read backwards and inverted is an inverse round whose first two micro-ops have moved to its end. -/
theorem roundOps_reverse_map (r : Nat) :
    (roundOps r).reverse.map inverseOp =
      [Instr.addroundkey (.ofNat 6 r), Instr.invmixcolumns] ++ [Instr.invshiftrows, Instr.invsubbytes] := rfl

/-- The parts `g a ++ u` one after another, with a `u` in front, are the parts `u ++ g a` with a `u` behind. -/
theorem append_flatMap_rotate {α β : Type} (u : List β) (g : α → List β) (l : List α) :
    u ++ l.flatMap (fun a => g a ++ u) = l.flatMap (fun a => u ++ g a) ++ u := by
  induction l with
  | nil => simp
  | cons a l ih => simp [← ih]

/-- Prog(ENCRYPT) without its two transfers. -/
theorem progEncrypt_between_transfers (nr : Nat) :
    ((progEncrypt nr).drop 1).dropLast =
      [Instr.addroundkey 0] ++ ((List.range' 1 (nr - 1)).flatMap roundOps ++ finalRoundOps nr) := by
  have hends : progEncrypt nr =
      Instr.loadstate :: (([Instr.addroundkey 0] ++ ((List.range' 1 (nr - 1)).flatMap roundOps ++ finalRoundOps nr)) ++
        [Instr.storeout]) := by
    simp [progEncrypt]
  rw [hends, List.drop_one, List.tail_cons, List.dropLast_concat]

/-- Read backwards and inverted, every round begins with the last two micro-ops of an inverse round: turned by those two, the
rounds are the inverse rounds (44_engine.md R164). -/
theorem progDecrypt_eq_reverse (nr : Nat) :
    progDecrypt nr =
      [Instr.loadstate] ++ ((((progEncrypt nr).drop 1).dropLast).reverse.map inverseOp) ++ [Instr.storeout] := by
  have hfinal : (finalRoundOps nr).reverse.map inverseOp =
      [Instr.addroundkey (.ofNat 6 nr)] ++ [Instr.invshiftrows, Instr.invsubbytes] := rfl
  have hrounds : ((List.range' 1 (nr - 1)).flatMap roundOps).reverse.map inverseOp =
      (List.range' 1 (nr - 1)).reverse.flatMap fun r =>
        [Instr.addroundkey (.ofNat 6 r), Instr.invmixcolumns] ++ [Instr.invshiftrows, Instr.invsubbytes] := by
    simp only [List.reverse_flatMap, List.map_flatMap, Function.comp_apply, roundOps_reverse_map]
  have hturn : [Instr.invshiftrows, Instr.invsubbytes] ++ ((List.range' 1 (nr - 1)).reverse.flatMap fun r =>
        [Instr.addroundkey (.ofNat 6 r), Instr.invmixcolumns] ++ [Instr.invshiftrows, Instr.invsubbytes]) =
      (List.range' 1 (nr - 1)).reverse.flatMap invRoundOps ++ [Instr.invshiftrows, Instr.invsubbytes] :=
    append_flatMap_rotate _ _ _
  rw [progEncrypt_between_transfers, List.reverse_append, List.reverse_append, List.map_append, List.map_append, hfinal,
    hrounds, List.append_assoc [Instr.addroundkey (.ofNat 6 nr)], hturn]
  simp [progDecrypt, invFinalRoundOps, inverseOp]

theorem progDecrypt_eq (nr : Nat) :
    progDecrypt nr =
      [Instr.loadstate, Instr.addroundkey (.ofNat 6 nr)] ++
        ((List.range' 1 (nr - 1)).reverse.flatMap invRoundOps ++ (invFinalRoundOps ++ [Instr.storeout])) := by
  simp [progDecrypt]

theorem progDecrypt_length {nr : Nat} (h : 1 ≤ nr) : (progDecrypt nr).length = 4 * nr + 2 := by
  simp only [progDecrypt_eq, List.length_append, length_flatMap_of_const invRoundOps_length, List.length_reverse,
    List.length_range', invFinalRoundOps, List.length_cons, List.length_nil]
  omega

/-- The four micro-ops of inverse round r stand from place 4(Nr-1-r) + 2 on. -/
theorem progDecrypt_round {nr r i : Nat} (j : Nat) (h1 : 1 ≤ r) (hr : r ≤ nr - 1) (hj : j < 4)
    (hi : i = 4 * (nr - 1 - r) + 2 + j) : (progDecrypt nr)[i]? = (invRoundOps r)[j]? := by
  have hk : (List.range' 1 (nr - 1)).reverse[nr - 1 - r]? = some r := by
    rw [List.getElem?_reverse (by simp; omega), List.length_range', List.getElem?_range' (by omega)]
    congr 1
    omega
  rw [progDecrypt_eq, ← getElem?_flatMap_append invRoundOps_length (invFinalRoundOps ++ [Instr.storeout]) hk hj, hi,
    Nat.add_right_comm]
  rfl

/-- Settles O44: `progDecrypt_eq_reverse`, and the places by `progDecrypt_round`. -/
theorem decryptProgIsEncryptReversed : Obligations.DecryptProgIsEncryptReversed := by
  intro nr hnr
  refine ⟨progDecrypt_length (by omega), progDecrypt_eq_reverse nr, fun r h1 hr => ⟨?_, ?_, ?_, ?_⟩⟩
  · exact (progDecrypt_round 0 h1 hr (by decide) rfl).trans rfl
  · exact (progDecrypt_round 1 h1 hr (by decide) rfl).trans rfl
  · exact (progDecrypt_round 2 h1 hr (by decide) rfl).trans rfl
  · exact (progDecrypt_round 3 h1 hr (by decide) rfl).trans rfl

end Sys2Proof.Machine
end

section
/-! SUPPORT. The run of a whole command: ACCEPT, the micro-ops of its Prog, COMPLETE (44_engine.md R160, 70_reset_and_hazards.md
R228). -/

namespace Sys2Proof.Machine

/-- `u` is `b` after n micro-ops of its Prog: only ST, TMP, OUT and KS can have changed, and UPC is n. -/
def AfterOps (b : State) (n : Nat) (u : State) : Prop :=
  u = { b with st := u.st, tmp := u.tmp, out := u.out, ks := u.ks, upc := BitVec.ofNat 6 n }

/-- The registers that stay, and UPC. -/
theorem AfterOps.fields {b u : State} {n : Nat} (h : AfterOps b n u) :
    u.inBuf = b.inBuf ∧ u.nk = b.nk ∧ u.keyValid = b.keyValid ∧ u.busy = b.busy ∧ u.cmd = b.cmd ∧
      u.upc = BitVec.ofNat 6 n ∧ u.cmdPort = b.cmdPort ∧ u.responses = b.responses ∧ u.resetReq = b.resetReq := by
  rw [h]
  simp

/-- Every micro-op of the Prog `q`, run from `b` on, carries the property `D` one place further. -/
def CarriedBy (b : State) (q : List Instr) (D : Nat → State → Prop) : Prop :=
  ∀ n i u u', q[n]? = some i → microOpLegal b.nk i = true → AfterOps b n u → D n u → exec i u = .next u' →
    D (n + 1) (advanceUpc u')

/-- A command that begins in `b` with Prog `q` ends after `q.length + 2` steps with COMPLETE, and is busy until then. -/
theorem run_command {s b : State} {q : List Instr} {D : Nat → State → Prop} (hs : step s = .next b)
    (hb : b.busy = true) (hr : b.resetReq = false) (hu : b.upc = 0) (hq : prog b.cmd b.nk = some q) (h0 : D 0 b)
    (hD : CarriedBy b q D) :
    (∃ u, run (q.length + 2) s = .next (complete u) ∧ AfterOps b q.length u ∧ D q.length u) ∧
    ∀ n, 1 ≤ n → n < q.length + 2 → ∃ u, run n s = .next u ∧ u.busy = true ∧ u.keyValid = b.keyValid := by
  have hrun : ∀ n, n ≤ q.length → ∃ u, run (n + 1) s = .next u ∧ AfterOps b n u ∧ D n u := by
    intro n hn
    obtain ⟨u, hu', hafter, hd⟩ := run_prog hb hr hu hq D h0 hD n hn
    rw [Nat.add_comm, run_add (run_one hs)]
    exact ⟨u, hu', hafter, hd⟩
  constructor
  · obtain ⟨u, hu', hafter, hd⟩ := hrun q.length le_rfl
    obtain ⟨-, hnk, -, hbusy, hcmd, hupc, -, -, hreset⟩ := hafter.fields
    have h60 := prog_length_le hq
    have hend : u.upc.toNat = q.length := by rw [hupc]; exact Nat.mod_eq_of_lt (by omega)
    exact ⟨u, run_succ hu' (step_complete (hreset.trans hr) (hbusy.trans hb) (by rw [hcmd, hnk, hq]) hend), hafter, hd⟩
  · intro n h1 hn
    obtain ⟨u, hu', hafter, -⟩ := hrun (n - 1) (by omega)
    obtain ⟨-, -, hkv, hbusy, -⟩ := hafter.fields
    rw [Nat.sub_add_cancel h1] at hu'
    exact ⟨u, hu', hbusy.trans hb, hkv⟩

/-- LEN of the frame of a payload of fewer than 256 bytes. -/
theorem commandFrame_append (op : Byte) {payload : List Byte} {len : Byte} (rest : List Byte)
    (h : payload.length = len.toNat) : commandFrame op payload ++ rest = op :: len :: (payload ++ rest) := by
  simp [commandFrame, h]

end Sys2Proof.Machine
end

section
/-! SUPPORT. A whole KEYLOAD (44_engine.md R167, 42_key_expansion.md R122 to R128). Settled here: O55. -/

namespace Sys2Proof.Machine

/-- After n micro-ops of Prog(KEYLOAD) the first n words of the schedule are made, and KS above them is as it was. -/
structure KeyloadProgress (b : State) (n : Nat) (u : State) : Prop where
  wf : Memory.wf u.ks = true
  keyWords : ∀ i, i < b.nk.toNat → i < n → ksw u.ks i = some (inWord b.inBuf i)
  derived : ∀ i, b.nk.toNat ≤ i → i < n → ScheduleWord u.ks b.nk.toNat i
  above : ∀ a, 4 * n ≤ a → readByte u.ks a = readByte b.ks a
  out : u.out = b.out

theorem keyloadProgress_zero {b : State} (h : Memory.wf b.ks = true) : KeyloadProgress b 0 b :=
  ⟨h, fun _ _ hi => absurd hi (Nat.not_lt_zero _), fun _ _ hi => absurd hi (Nat.not_lt_zero _), fun _ _ => rfl, rfl⟩

/-- What the micro-op at place UPC of Prog(KEYLOAD) leaves: OUT, and every KS byte outside word UPC. -/
theorem exec_keyload_frame {s u : State} {i : Instr} (hi : (progKeyload s.nk.toNat)[s.upc.toNat]? = some i)
    (hu : exec i s = .next u) :
    u.out = s.out ∧ ∀ a, 4 * s.upc.toNat + 4 ≤ a → readByte u.ks a = readByte s.ks a := by
  have hframe := microOpsChangeOnlyTheirTargets i s u hu
  rcases progKeyload_getElem? hi with ⟨-, rfl⟩ | ⟨-, rfl⟩
  all_goals
    rw [BitVec.ofNat_toNat, BitVec.setWidth_eq] at hframe
    obtain ⟨hframe, hother⟩ := hframe
    exact ⟨by rw [hframe], fun a ha => hother a (.inr ha)⟩

theorem keyloadProgress_carried {b : State} {q : List Instr} (hq : prog b.cmd b.nk = some q) (hc : b.cmd = 1#8) :
    CarriedBy b q (KeyloadProgress b) := by
  intro n i u u' hi hleg hafter h hu
  obtain ⟨hn, rfl, hlen⟩ := prog_keyload (hc ▸ hq)
  have h60 := prog_length_le hq
  obtain ⟨hlt, -⟩ := List.getElem?_eq_some_iff.1 hi
  obtain ⟨hbuf, hnk, -, -, -, hu6, -⟩ := hafter.fields
  have hupc : u.upc.toNat = n := by rw [hu6]; exact Nat.mod_eq_of_lt (by omega)
  have hi' : (progKeyload u.nk.toNat)[u.upc.toNat]? = some i := by rwa [hnk, hupc]
  obtain ⟨hwf, -⟩ := exec_microOp_ks (hnk ▸ hleg) hu
  obtain ⟨hold, hkey, hderived⟩ := exec_keyload_ksw h.wf (hnk ▸ hn) hi' hu
  obtain ⟨hout, habove⟩ := exec_keyload_frame hi' hu
  rw [hupc, hnk] at hkey hderived
  rw [hupc] at hold habove
  refine ⟨hwf h.wf, fun j hj hjn => ?_, fun j hj hjn => ?_, fun a ha => ?_, hout.trans h.out⟩
  · rcases Nat.lt_succ_iff_lt_or_eq.1 hjn with hlt' | rfl
    · exact (hold j (by omega)).trans (h.keyWords j hj hlt')
    · exact (hkey hj).trans (by rw [hbuf])
  · rcases Nat.lt_succ_iff_lt_or_eq.1 hjn with hlt' | rfl
    · exact (h.derived j hj hlt').of_ksw_eq fun k hk => hold k (by omega)
    · exact hderived hj
  · exact (habove a (by omega)).trans (h.above a (by omega))

/-- With the key words in KS, byte k of KS is byte k of IN. -/
theorem KeyloadProgress.readByte_key {b u : State} {n k : Nat} (h : KeyloadProgress b n u) (hk : k < 32)
    (hn : k / 4 < n) (hnk : k / 4 < b.nk.toNat) : readByte u.ks k = b.inBuf[k] := by
  have hplace : 4 * (k / 4) + k % 4 = k := Nat.div_add_mod k 4
  have hword := ksw_getElem (h.keyWords _ hnk hn) (k % 4) (by omega)
  rw [inWord_getElem b.inBuf _ _ _ (by omega)] at hword
  simpa only [hplace] using hword.symm

/-- The ACCEPT of a KEYLOAD frame with a legal key. -/
theorem step_begins_keyload {s : State} {key rest : List Byte} (hs : Idle s)
    (hkey : key.length = 16 ∨ key.length = 24 ∨ key.length = 32)
    (hport : s.cmdPort = commandFrame 0x01 key ++ rest) :
    ∃ b, step s = .next b ∧ b.busy = true ∧ b.resetReq = false ∧ b.upc = 0 ∧ b.cmd = 1#8 ∧
      nkLegal b.nk = true ∧ b.nk.toNat = key.length / 4 ∧ b.keyValid = false ∧ b.ks = s.ks ∧ b.out = s.out ∧
      b.cmdPort = rest ∧ b.responses = s.responses ∧ ∀ k (_ : k < key.length) (_ : k < 32), b.inBuf[k] = key[k] := by
  obtain ⟨len, hlen, hl⟩ : ∃ len : Byte, key.length = len.toNat ∧ (len = 16 ∨ len = 24 ∨ len = 32) := by
    refine ⟨BitVec.ofNat 8 key.length, ?_, ?_⟩ <;> rcases hkey with h | h | h <;> rw [h] <;> decide
  rw [commandFrame_append _ _ hlen] at hport
  have hstep := (step_keyloadFrame hs hlen hport).trans (exec_keyload_begins hlen hl)
  have hnk : nkLegal (nkOfLen len) = true ∧ (nkOfLen len).toNat = len.toNat / 4 := by
    rcases hl with rfl | rfl | rfl <;> decide
  obtain ⟨hn, hn4⟩ := hnk
  refine ⟨_, hstep, ?_⟩
  simpa [hs.2, hn, hn4, hlen] using fun k hk _ => dif_pos hk

/-- Settles O55: ACCEPT begins the KEYLOAD, each micro-op makes one more word (`keyloadProgress_carried`), and COMPLETE sets
KEY_VALID. -/
theorem keyloadExpandsTheKey : Obligations.KeyloadExpandsTheKey := by
  intro s key rest hs hwf hkey hport nk
  obtain ⟨b, hstep, hb, hr, hupc, hc, hn, hnk, hkv, hks, hout, hcp, hresp, hbuf⟩ := step_begins_keyload hs hkey hport
  obtain ⟨q, hq⟩ := prog_isSome hn (.inl hc)
  have hlen : q.length = 4 * (nk + 7) := by
    obtain ⟨-, rfl, -⟩ := prog_keyload (hc ▸ hq)
    rw [progKeyload_length, hnk]
  obtain ⟨⟨u, hrun, hafter, hprog⟩, hbusy⟩ := run_command hstep hb hr hupc hq (keyloadProgress_zero (hks ▸ hwf))
    (keyloadProgress_carried hq hc)
  obtain ⟨-, hunk, -, -, hucmd, -, hucp, huresp, hureset⟩ := hafter.fields
  rw [hlen] at hrun hbusy hprog
  rw [complete_keyload (hucmd.trans hc)] at hrun
  refine ⟨_, hrun, ⟨rfl, hureset.trans hr⟩, rfl, by rw [hunk, hnk], rfl, hucp.trans hcp, hprog.out.trans hout,
    by rw [huresp, hresp], hprog.wf, fun k hk => ?_, fun i hi hi' => ?_, fun a ha => ?_, fun n h1 hn' => ?_⟩
  · exact (hprog.readByte_key (by omega) (by omega) (by omega)).trans (hbuf k hk (by omega))
  · have hword := hprog.derived i (by omega) hi'
    rwa [hnk] at hword
  · exact (hprog.above a (by omega)).trans (by rw [hks])
  · obtain ⟨v, hv, hvb, hvk⟩ := hbusy n h1 hn'
    exact ⟨v, hv, hvb, hvk.trans hkv⟩

end Sys2Proof.Machine
end

section
/-! SUPPORT. The block commands as functions on blocks: what the micro-ops of a Prog do to ST, and that this is the cipher or
the inverse cipher (44_engine.md R163, R164). -/

namespace Sys2Proof.Machine

/-- What a micro-op does to ST, with KS holding `m` and the block `input` in IN; KXINIT, KXSTEP and STOREOUT keep it. -/
def blockOp (m : Memory) (input b : Block) : Instr → Block
  | .addroundkey r => xorBytes b (keyOf m r.toNat)
  | .subbytes => subBytes b
  | .shiftrows => shiftRows b
  | .mixcolumns => mixColumns b
  | .invsubbytes => invSubBytes b
  | .invshiftrows => invShiftRows b
  | .invmixcolumns => invMixColumns b
  | .loadstate => input
  | _ => b

/-- What a list of micro-ops does to ST, one after another. -/
def blockOps (m : Memory) (input b : Block) (is : List Instr) : Block := is.foldl (blockOp m input) b

theorem blockOps_append (m : Memory) (input b : Block) (is js : List Instr) :
    blockOps m input b (is ++ js) = blockOps m input (blockOps m input b is) js := List.foldl_append

theorem exec_st {s u : State} {i : Instr} (h : microOpLegal s.nk i = true) (hu : exec i s = .next u) :
    u.st = blockOp s.ks (inBlock s.inBuf) s.st i := by
  cases i with
  | keyload _ _ | encrypt _ _ | decrypt _ _ => simp [microOpLegal] at h
  | addroundkey r =>
    obtain rfl := Host.Outcome.next.inj ((exec_addroundkey h).symm.trans hu)
    rfl
  | kxinit i => obtain ⟨-, m, -, rfl⟩ := execKxinit_next.1 hu; rfl
  | kxstep i => obtain ⟨-, w, m, -, rfl⟩ := execKxstep_next.1 hu; rfl
  | _ => obtain rfl := Host.Outcome.next.inj hu; rfl

/-! ### The rounds -/

/-- A round index of at most 14 fits ARG. -/
theorem toNat_roundIndex {r : Nat} (h : r ≤ 14) : (BitVec.ofNat 6 r).toNat = r := Nat.mod_eq_of_lt (by omega)

section
variable (m : Memory) (input : Block)

theorem blockOps_roundOps {r : Nat} (h : r ≤ 14) (b : Block) :
    blockOps m input b (roundOps r) = xorBytes (mixColumns (shiftRows (subBytes b))) (keyOf m r) := by
  simp [blockOps, roundOps, blockOp, toNat_roundIndex h]

theorem blockOps_invRoundOps {r : Nat} (h : r ≤ 14) (b : Block) :
    blockOps m input b (invRoundOps r) = invMixColumns (xorBytes (invSubBytes (invShiftRows b)) (keyOf m r)) := by
  simp [blockOps, invRoundOps, blockOp, toNat_roundIndex h]

theorem blockOps_rounds {n : Nat} (h : n ≤ 14) (b : Block) :
    blockOps m input b ((List.range' 1 n).flatMap roundOps) = encryptRounds m n b := by
  induction n with
  | zero => rfl
  | succ n ih =>
    rw [List.range'_1_concat, List.flatMap_append, List.flatMap_singleton, blockOps_append, ih (by omega), Nat.add_comm 1 n,
      blockOps_roundOps m input h, encryptRounds]

theorem blockOps_invRounds {n : Nat} (h : n ≤ 14) (b : Block) :
    blockOps m input b ((List.range' 1 n).reverse.flatMap invRoundOps) = decryptRounds m n b := by
  induction n generalizing b with
  | zero => rfl
  | succ n ih =>
    rw [List.range'_1_concat, List.reverse_concat, List.flatMap_cons, blockOps_append, Nat.add_comm 1 n,
      blockOps_invRoundOps m input h, ih (by omega), decryptRounds]

theorem blockOps_progEncrypt {nr : Nat} (h : nr ≤ 14) (b : Block) :
    blockOps m input b (progEncrypt nr) = cipher m nr input := by
  have hfirst (b : Block) : blockOps m input b [.loadstate, .addroundkey 0] = xorBytes input (keyOf m 0) := rfl
  have hlast (b : Block) : blockOps m input (blockOps m input b (finalRoundOps nr)) [.storeout] =
      xorBytes (shiftRows (subBytes b)) (keyOf m nr) := by
    simp [blockOps, finalRoundOps, blockOp, toNat_roundIndex h]
  rw [progEncrypt, blockOps_append, blockOps_append, blockOps_append, hfirst, blockOps_rounds m input (by omega), hlast,
    cipher]

theorem blockOps_progDecrypt {nr : Nat} (h : nr ≤ 14) (b : Block) :
    blockOps m input b (progDecrypt nr) = invCipher m nr input := by
  have hfirst (b : Block) : blockOps m input b [.loadstate, .addroundkey (.ofNat 6 nr)] = xorBytes input (keyOf m nr) := by
    simp [blockOps, blockOp, toNat_roundIndex h]
  have hlast (b : Block) : blockOps m input (blockOps m input b invFinalRoundOps) [.storeout] =
      xorBytes (invSubBytes (invShiftRows b)) (keyOf m 0) := rfl
  rw [progDecrypt, blockOps_append, blockOps_append, blockOps_append, hfirst, blockOps_invRounds m input (by omega), hlast,
    invCipher]

end

end Sys2Proof.Machine
end

section
/-! SUPPORT. A whole block command (44_engine.md R168, R169). Settled here: O56, O57. -/

namespace Sys2Proof.Machine

/-- After n micro-ops of a block command ST is what they make of it, KS is as it was, and OUT holds ST when the last of them
was STOREOUT. -/
structure BlockProgress (b : State) (q : List Instr) (n : Nat) (u : State) : Prop where
  ks : u.ks = b.ks
  st : u.st = blockOps b.ks (inBlock b.inBuf) b.st (q.take n)
  out : (q.take n).getLast? = some .storeout → u.out = u.st

theorem blockProgress_zero (b : State) (q : List Instr) : BlockProgress b q 0 b :=
  ⟨rfl, rfl, fun h => by simp at h⟩

theorem blockProgress_carried {b : State} {q : List Instr} (hq : prog b.cmd b.nk = some q) (hc : b.cmd ≠ 1#8) :
    CarriedBy b q (BlockProgress b q) := by
  intro n i u u' hi hleg hafter h hu
  obtain ⟨hbuf, hnk, -, -, hcmd, -⟩ := hafter.fields
  have htake : q.take (n + 1) = q.take n ++ [i] := by rw [List.take_add_one, hi]; rfl
  have hks : u'.ks = u.ks := exec_block_ks (hcmd ▸ hc) (hcmd ▸ hnk ▸ hq) (List.mem_of_getElem? hi) hu
  refine ⟨hks.trans h.ks, ?_, fun hlast => ?_⟩
  · rw [htake, blockOps_append, ← h.st, ← h.ks, ← hbuf]
    exact (advanceUpc_st u').trans (exec_st (hnk ▸ hleg) hu)
  · rw [htake, List.getLast?_concat, Option.some.injEq] at hlast
    subst hlast
    obtain rfl := Host.Outcome.next.inj hu
    rfl

/-- The block command `op` answers OK with `f` of the schedule, the number of rounds and its block, after 4Nr + 4 steps and
not before; KS, NK and KEY_VALID are as they were. -/
def AnswersBlock (op : Byte) (f : Memory → Nat → Block → Block) : Prop :=
  ∀ (s : State) (p : Block) (rest : List Byte), Idle s → s.keyValid = true → nkLegal s.nk = true →
    s.cmdPort = commandFrame op p.toList ++ rest →
    ∃ t, run (4 * (s.nk.toNat + 6) + 4) s = .next t ∧
      Idle t ∧ t.status = 0x00 ∧ t.ks = s.ks ∧ t.nk = s.nk ∧ t.keyValid = true ∧ t.cmdPort = rest ∧
      t.responses = s.responses ++ [⟨0x00, 16, (f s.ks (s.nk.toNat + 6) p).toList⟩] ∧
      ∀ n, 1 ≤ n → n < 4 * (s.nk.toNat + 6) + 4 → ∃ u, run n s = .next u ∧ u.busy = true

theorem inBlock_latch (buf : Vector Byte 32) (p : Block) : inBlock (latch buf p.toList) = p :=
  Vector.ext fun k hk => by simp [hk]

/-- The Prog of a block command has 4Nr + 2 micro-ops and ends with STOREOUT. -/
theorem prog_block_ends {op : Byte} {nk : BitVec 4} {q : List Instr} (hop : op = 0x02 ∨ op = 0x03)
    (hq : prog op nk = some q) : q.length = 4 * (nk.toNat + 6) + 2 ∧ q.getLast? = some .storeout := by
  obtain ⟨-, ⟨h1, -⟩ | ⟨-, rfl, hl⟩ | ⟨-, rfl, hl⟩⟩ := prog_length hq
  · exact absurd h1 (block_op_ne hop)
  · exact ⟨hl, List.getLast?_concat⟩
  · exact ⟨hl, List.getLast?_concat⟩

/-- The ACCEPT of a block command's frame, with a key loaded. -/
theorem step_begins_block {s : State} {op : Byte} {p : Block} {rest : List Byte} (hop : op = 0x02 ∨ op = 0x03)
    (hs : Idle s) (hk : s.keyValid = true) (hport : s.cmdPort = commandFrame op p.toList ++ rest) :
    ∃ b, step s = .next b ∧ b.busy = true ∧ b.resetReq = false ∧ b.upc = 0 ∧ b.cmd = op ∧ b.nk = s.nk ∧
      b.keyValid = true ∧ b.ks = s.ks ∧ b.cmdPort = rest ∧ b.responses = s.responses ∧ inBlock b.inBuf = p := by
  have hp : p.toList.length = 16 := by simp
  rw [commandFrame_append op (len := 16) rest hp] at hport
  have hstep := (step_blockFrame hs hp hop hport).trans (acceptBlock_begins hp hk)
  refine ⟨_, hstep, ?_⟩
  simp [block_op_ne hop, hk, hs.2, inBlock_latch]

/-- A block command answers what the micro-ops of its Prog make of the block: ACCEPT latches the block, STOREOUT copies the
result to OUT, and COMPLETE sends it. -/
theorem answersBlock_of_blockOps {op : Byte} {f : Memory → Nat → Block → Block} (hop : op = 0x02 ∨ op = 0x03)
    (hf : ∀ m nk q b p, prog op nk = some q → blockOps m p b q = f m (nk.toNat + 6) p) : AnswersBlock op f := by
  intro s p rest hs hk hn hport
  have hop1 : op ≠ 1#8 := block_op_ne hop
  obtain ⟨b, hstep, hb, hr, hupc, hc, hnk, hkv, hks, hcp, hresp, hbuf⟩ := step_begins_block hop hs hk hport
  obtain ⟨q, hq⟩ := prog_isSome hn (.inr hop)
  obtain ⟨hlen, hlast⟩ := prog_block_ends hop hq
  have hq' : prog b.cmd b.nk = some q := by rw [hc, hnk, hq]
  obtain ⟨⟨u, hrun, hafter, hprog⟩, hbusy⟩ := run_command hstep hb hr hupc hq' (blockProgress_zero b q)
    (blockProgress_carried hq' (hc ▸ hop1))
  obtain ⟨-, hunk, hukv, -, hucmd, -, hucp, huresp, hureset⟩ := hafter.fields
  have hout : u.out = f s.ks (s.nk.toNat + 6) p := by
    rw [hprog.out (by rwa [List.take_length]), hprog.st, List.take_length, hbuf, hks, hf _ _ _ _ _ hq]
  rw [hlen] at hrun hbusy
  rw [complete_block (by rwa [hucmd, hc])] at hrun
  refine ⟨_, hrun, ⟨rfl, hureset.trans hr⟩, rfl, hprog.ks.trans hks, hunk.trans hnk, hukv.trans hkv, hucp.trans hcp,
    by rw [huresp, hresp, hout], fun n h1 hn => ?_⟩
  obtain ⟨v, hv, hvb, -⟩ := hbusy n h1 hn
  exact ⟨v, hv, hvb⟩

theorem answersBlock_encrypt : AnswersBlock 0x02 cipher := by
  refine answersBlock_of_blockOps (.inl rfl) fun m nk q b p hq => ?_
  obtain ⟨hn, ⟨h1, -⟩ | ⟨-, rfl, -⟩ | ⟨h3, -⟩⟩ := prog_length hq
  · exact absurd h1 (by decide)
  · have := nkLegal_toNat hn
    exact blockOps_progEncrypt m p (by rw [nrOf]; omega) b
  · exact absurd h3 (by decide)

theorem answersBlock_decrypt : AnswersBlock 0x03 invCipher := by
  refine answersBlock_of_blockOps (.inr rfl) fun m nk q b p hq => ?_
  obtain ⟨hn, ⟨h1, -⟩ | ⟨h2, -⟩ | ⟨-, rfl, -⟩⟩ := prog_length hq
  · exact absurd h1 (by decide)
  · exact absurd h2 (by decide)
  · have := nkLegal_toNat hn
    exact blockOps_progDecrypt m p (by rw [nrOf]; omega) b

/-- Settles O56: `answersBlock_encrypt`, whose micro-ops make the cipher (`blockOps_progEncrypt`). -/
theorem encryptAnswersTheCipher : Obligations.EncryptAnswersTheCipher := answersBlock_encrypt

/-- Settles O57: `answersBlock_decrypt`, whose micro-ops make the inverse cipher (`blockOps_progDecrypt`). -/
theorem decryptAnswersTheInverseCipher : Obligations.DecryptAnswersTheInverseCipher := answersBlock_decrypt

end Sys2Proof.Machine
end

section
/-! SUPPORT. ENCRYPT and DECRYPT undo each other (44_engine.md R170). Settled here: O58. -/

namespace Sys2Proof.Machine

/-- n inverse rounds, from where n rounds and the start of the next one lead. -/
theorem decryptRounds_encryptRounds (m : Memory) (n : Nat) (b : Block) :
    decryptRounds m n (shiftRows (subBytes (encryptRounds m n b))) = shiftRows (subBytes b) := by
  induction n with
  | zero => rfl
  | succ n ih =>
    rw [encryptRounds, decryptRounds, invShiftRows_shiftRows, invSubBytes_subBytes, xorBytes_cancel_right,
      invMixColumns_mixColumns, ih]

/-- n rounds, from where n inverse rounds and the start of the next one lead. -/
theorem encryptRounds_decryptRounds (m : Memory) (n : Nat) (b : Block) :
    encryptRounds m n (invSubBytes (invShiftRows (decryptRounds m n b))) = invSubBytes (invShiftRows b) := by
  induction n generalizing b with
  | zero => rfl
  | succ n ih =>
    rw [encryptRounds, decryptRounds, ih, subBytes_invSubBytes, shiftRows_invShiftRows, mixColumns_invMixColumns,
      xorBytes_cancel_right]

theorem invCipher_cipher (m : Memory) (nr : Nat) (b : Block) : invCipher m nr (cipher m nr b) = b := by
  rw [invCipher, cipher, xorBytes_cancel_right, decryptRounds_encryptRounds, invShiftRows_shiftRows,
    invSubBytes_subBytes, xorBytes_cancel_right]

theorem cipher_invCipher (m : Memory) (nr : Nat) (b : Block) : cipher m nr (invCipher m nr b) = b := by
  rw [cipher, invCipher, xorBytes_cancel_right, encryptRounds_decryptRounds, subBytes_invSubBytes,
    shiftRows_invShiftRows, xorBytes_cancel_right]

/-- Settles O58: the two commands answer functions that undo each other under every schedule. -/
theorem decryptUndoesEncrypt : Obligations.DecryptUndoesEncrypt := by
  intro s p op op' hs hk hn hop hport n
  obtain ⟨f, g, hf, hg, hgf⟩ : ∃ f g, AnswersBlock op f ∧ AnswersBlock op' g ∧ ∀ m nr b, g m nr (f m nr b) = b := by
    rcases hop with ⟨rfl, rfl⟩ | ⟨rfl, rfl⟩
    · exact ⟨cipher, invCipher, answersBlock_encrypt, answersBlock_decrypt, invCipher_cipher⟩
    · exact ⟨invCipher, cipher, answersBlock_decrypt, answersBlock_encrypt, cipher_invCipher⟩
  obtain ⟨t, hrun, hidle, -, hks, hnk, hkv, hcp, hresp, -⟩ := hf s p [] hs hk hn (by rw [hport, List.append_nil])
  refine ⟨t, _, hrun, hresp, hidle, hkv, hks, hnk, hcp, fun u hu huk huks hunk hup => ?_⟩
  obtain ⟨v, hv, -, -, -, -, -, -, hvresp, -⟩ := hg u _ [] hu huk (by rwa [hunk, hnk]) (by rw [hup, List.append_nil])
  rw [hunk, hnk] at hv hvresp
  rw [huks, hks, hgf] at hvresp
  exact ⟨v, hv, hvresp⟩

end Sys2Proof.Machine
end

section
/-! SUPPORT. The schedule is a function of the key (42_key_expansion.md R127), and so the answer of a block command is one of the
key, the block and the direction (44_engine.md R171). Settled here: O59. -/

namespace Sys2Proof.Machine

/-- A schedule of N words of a key of nk words is determined by the key words. -/
theorem ksw_eq_of_schedule {m m' : Memory} {nk N : Nat} (hnk : 0 < nk)
    (hkey : ∀ i, i < nk → ksw m i = ksw m' i) (h : ∀ i, nk ≤ i → i < N → ScheduleWord m nk i)
    (h' : ∀ i, nk ≤ i → i < N → ScheduleWord m' nk i) (i : Nat) (hi : i < N) : ksw m i = ksw m' i := by
  induction i using Nat.strong_induction_on with
  | h i ih =>
    by_cases hlt : i < nk
    · exact hkey i hlt
    · obtain ⟨prev, old, t, hprev, hold, ht, hw⟩ := h i (by omega) hi
      obtain ⟨prev', old', t', hprev', hold', ht', hw'⟩ := h' i (by omega) hi
      have hp : prev = prev' := by
        rw [ih (i - 1) (by omega) (by omega), hprev'] at hprev
        exact (Option.some.inj hprev).symm
      have ho : old = old' := by
        rw [ih (i - nk) (by omega) (by omega), hold'] at hold
        exact (Option.some.inj hold).symm
      subst hp ho
      obtain rfl := Option.some.inj (ht.symm.trans ht')
      rw [hw, hw']

/-- Equal words are equal round keys (42_key_expansion.md R126). -/
theorem keyOf_eq_of_ksw {m m' : Memory} {r : Nat} (hr : r ≤ 14)
    (h : ∀ c, c < 4 → ksw m (4 * r + c) = ksw m' (4 * r + c)) : keyOf m r = keyOf m' r := by
  refine Vector.ext fun j hj => ?_
  have hw := ksw_eq (m := m) (i := 4 * r + j / 4) (by omega)
  have hw' := (h (j / 4) (by omega)).symm.trans hw
  have hplace : 4 * (4 * r + j / 4) + j % 4 = 16 * r + j := by omega
  rw [keyOf_getElem, keyOf_getElem, ← hplace, ← ksw_getElem hw _ (Nat.mod_lt _ (by decide)),
    ← ksw_getElem hw' _ (Nat.mod_lt _ (by decide))]

/-- The block function `f` depends on the round keys 0 to Nr of the schedule only. -/
def DependsOnRoundKeys (f : Memory → Nat → Block → Block) : Prop :=
  ∀ m m' nr b, (∀ r, r ≤ nr → keyOf m r = keyOf m' r) → f m nr b = f m' nr b

theorem encryptRounds_congr {m m' : Memory} {n : Nat} (h : ∀ r, r ≤ n → keyOf m r = keyOf m' r) (b : Block) :
    encryptRounds m n b = encryptRounds m' n b := by
  induction n with
  | zero => rfl
  | succ n ih => rw [encryptRounds, encryptRounds, ih fun r hr => h r (by omega), h (n + 1) le_rfl]

theorem decryptRounds_congr {m m' : Memory} {n : Nat} (h : ∀ r, r ≤ n → keyOf m r = keyOf m' r) (b : Block) :
    decryptRounds m n b = decryptRounds m' n b := by
  induction n generalizing b with
  | zero => rfl
  | succ n ih => rw [decryptRounds, decryptRounds, ih fun r hr => h r (by omega), h (n + 1) le_rfl]

theorem dependsOnRoundKeys_cipher : DependsOnRoundKeys cipher := by
  intro m m' nr b h
  rw [cipher, cipher, encryptRounds_congr fun r hr => h r (by omega), h 0 (by omega), h nr le_rfl]

theorem dependsOnRoundKeys_invCipher : DependsOnRoundKeys invCipher := by
  intro m m' nr b h
  rw [invCipher, invCipher, decryptRounds_congr fun r hr => h r (by omega), h 0 (by omega), h nr le_rfl]

theorem nkLegal_of_toNat {nk : BitVec 4} (h : nk.toNat = 4 ∨ nk.toNat = 6 ∨ nk.toNat = 8) : nkLegal nk = true := by
  revert nk
  decide

/-- A KEYLOAD and then a block command: the two answers, and what the schedule of the second one is. -/
theorem run_keyload_block {op : Byte} {f : Memory → Nat → Block → Block} (hf : AnswersBlock op f) {s : State}
    {key : List Byte} {p : Block} (hs : Idle s) (hwf : Memory.wf s.ks = true)
    (hkey : key.length = 16 ∨ key.length = 24 ∨ key.length = 32)
    (hport : s.cmdPort = commandFrame 0x01 key ++ commandFrame op p.toList) :
    ∃ t m, run ((4 * (key.length / 4 + 7) + 2) + (4 * (key.length / 4 + 6) + 4)) s = .next t ∧
      t.responses = s.responses ++ [⟨0x00, 0, []⟩, ⟨0x00, 16, (f m (key.length / 4 + 6) p).toList⟩] ∧
      (∀ k (_ : k < key.length), readByte m k = key[k]) ∧
      ∀ i, key.length / 4 ≤ i → i < 4 * (key.length / 4 + 7) → ScheduleWord m (key.length / 4) i := by
  obtain ⟨u, hrun, hidle, hkv, hnk, -, hcp, -, hresp, -, hbytes, hwords, -⟩ :=
    keyloadExpandsTheKey s key _ hs hwf hkey hport
  obtain ⟨t, ht, -, -, -, -, -, -, htresp, -⟩ :=
    hf u p [] hidle hkv (nkLegal_of_toNat (by omega)) (by rw [hcp, List.append_nil])
  rw [hnk] at ht htresp
  refine ⟨t, u.ks, (run_add hrun).trans ht, ?_, hbytes, hwords⟩
  rw [htresp, hresp, List.append_assoc]
  rfl

/-- Settles O59: both machines answer one function of the schedule, and the schedules agree in every round key. -/
theorem responseDependsOnKeyAndBlockOnly : Obligations.ResponseDependsOnKeyAndBlockOnly := by
  intro s s' key p op hs hs' hwf hwf' hkey hop hport hport' nk n
  obtain ⟨f, hf, hdep⟩ : ∃ f, AnswersBlock op f ∧ DependsOnRoundKeys f := by
    rcases hop with rfl | rfl
    · exact ⟨cipher, answersBlock_encrypt, dependsOnRoundKeys_cipher⟩
    · exact ⟨invCipher, answersBlock_decrypt, dependsOnRoundKeys_invCipher⟩
  obtain ⟨t, m, hrun, hresp, hbytes, hwords⟩ := run_keyload_block hf hs hwf hkey hport
  obtain ⟨t', m', hrun', hresp', hbytes', hwords'⟩ := run_keyload_block hf hs' hwf' hkey hport'
  have hkw (i : Nat) (hi : i < key.length / 4) : ksw m i = ksw m' i := by
    rw [ksw_eq (by omega), ksw_eq (by omega), Option.some.injEq]
    refine Vector.ext fun k hk => ?_
    rw [Vector.getElem_ofFn, Vector.getElem_ofFn, hbytes _ (by omega), hbytes' _ (by omega)]
  have hksw := ksw_eq_of_schedule (by omega) hkw hwords hwords'
  have heq : f m (key.length / 4 + 6) p = f m' (key.length / 4 + 6) p :=
    hdep m m' _ p fun r hr => keyOf_eq_of_ksw (by omega) fun c hc => hksw _ (by omega)
  exact ⟨t, t', _, hrun, hrun', hresp, heq ▸ hresp'⟩

end Sys2Proof.Machine
end

section
/-! SUPPORT. The errors of the core (60_exceptions.md R191, R192, R194, R195, R198): which ACCEPT raises which one, and that no
step stops where the invariant holds (R196, 70_reset_and_hazards.md R229). Settled here: O35, O36, O38, O54. -/

namespace Sys2Proof.Machine

/-! ### The errors -/

theorem acceptBlock_noKey {s : State} {op len : Byte} {p : List Byte} (hp : p.length = len.toNat)
    (hk : s.keyValid = false) : acceptBlock op len p s = .next (errorState 0x04 s) := by
  rcases acceptBlock_cases (s := s) (op := op) hp with ⟨-, h⟩ | ⟨hk', -⟩ | ⟨hk', -⟩
  · exact h
  · simp [hk] at hk'
  · simp [hk] at hk'

theorem acceptBlock_invalidBlockLength {s : State} {op len : Byte} {p : List Byte} (hp : p.length = len.toNat)
    (hk : s.keyValid = true) (hl : len ≠ 16) : acceptBlock op len p s = .next (errorState 0x02 s) := by
  rcases acceptBlock_cases (s := s) (op := op) hp with ⟨hk', -⟩ | ⟨-, hl', -⟩ | ⟨-, -, h⟩
  · simp [hk] at hk'
  · exact absurd hl' hl
  · exact h

/-- Settles O35: the length is none of the three that begin a KEYLOAD. -/
theorem keyloadRefusesOtherLengths : Obligations.KeyloadRefusesOtherLengths := by
  intro s len p hp h16 h24 h32
  rcases execKeyload_cases (s := s) hp with ⟨hl, -⟩ | ⟨-, h⟩
  · have hlen : len = 16 ∨ len = 24 ∨ len = 32 := keyLenLegal_iff.1 hl
    tauto
  · exact h

/-- Settles O36: both block commands are one ACCEPT, whatever the opcode. -/
theorem blockCommandErrors : Obligations.BlockCommandErrors := fun _ _ _ hp =>
  ⟨fun hk => ⟨acceptBlock_noKey hp hk, acceptBlock_noKey hp hk⟩,
    fun hk hl => ⟨acceptBlock_invalidBlockLength hp hk hl, acceptBlock_invalidBlockLength hp hk hl⟩⟩

/-- Settles O38, by the step of a reserved frame. -/
theorem reservedOpcodeIsIllegalCommand : Obligations.ReservedOpcodeIsIllegalCommand :=
  fun _ _ _ _ _ hs h1 h2 h3 hp hport => step_reservedFrame hs hp h1 h2 h3 hport

/-! ### No step stops -/

theorem execKeyload_next {len : Byte} {p : List Byte} (hp : p.length = len.toNat) (s : State) :
    ∃ t, execKeyload len p s = .next t := by
  rcases execKeyload_cases (s := s) hp with ⟨-, h⟩ | ⟨-, h⟩
  · exact ⟨_, h⟩
  · exact ⟨_, h⟩

theorem acceptBlock_next {op len : Byte} {p : List Byte} (hp : p.length = len.toNat) (s : State) :
    ∃ t, acceptBlock op len p s = .next t := by
  rcases acceptBlock_cases (s := s) (op := op) hp with ⟨-, h⟩ | ⟨-, -, h⟩ | ⟨-, -, h⟩
  · exact ⟨_, h⟩
  · exact ⟨_, h⟩
  · exact ⟨_, h⟩

/-- A decoded command is accepted in every state: its frame is whole, so it begins or raises an error. -/
theorem exec_decoded_next {bytes rest : List Byte} {i : Instr} (hd : decodeFrame bytes = .command i rest) (s : State) :
    ∃ t, exec i s = .next t := by
  obtain ⟨len, p, hp, ⟨rfl, -⟩ | ⟨rfl, -⟩ | ⟨rfl, -⟩⟩ := decodeFrame_command hd
  · exact execKeyload_next hp s
  · exact acceptBlock_next hp s
  · exact acceptBlock_next hp s

/-- An idle engine never stops, whatever bytes stand at the port. -/
theorem step_idle_next {s : State} (hs : Idle s) : ∃ t, step s = .next t := by
  cases hd : decodeFrame s.cmdPort with
  | incomplete => exact ⟨_, step_incomplete hs hd⟩
  | reservedOpcode op len rest => exact ⟨_, step_reservedOpcode hs hd⟩
  | command i rest =>
    rw [step_command hs hd]
    exact exec_decoded_next hd _

/-- A busy engine with UPC within its Prog never stops: EXEC of a legal micro-op below the end, COMPLETE at it. -/
theorem step_busy_next {s : State} {p : List Instr} (hr : s.resetReq = false) (hb : s.busy = true)
    (hp : prog s.cmd s.nk = some p) (hu : s.upc.toNat ≤ p.length) : ∃ t, step s = .next t := by
  rcases Nat.lt_or_eq_of_le hu with hlt | heq
  · have hi : p[s.upc.toNat]? = some p[s.upc.toNat] := List.getElem?_eq_getElem hlt
    obtain ⟨hleg, -⟩ := prog_issues hp (List.mem_of_getElem? hi)
    obtain ⟨u, hexec⟩ := exec_microOp_next hleg
    exact ⟨advanceUpc u, by rw [step_exec hr hb hp hi, hexec]; rfl⟩
  · exact ⟨_, step_complete hr hb hp heq⟩

/-- Settles O54: a reset event and an idle engine never stop, and the invariant keeps a busy engine within its Prog. -/
theorem invariantStatesNeverStop : Obligations.InvariantStatesNeverStop := by
  intro s h
  cases hr : s.resetReq with
  | true => exact ⟨takeReset s, by rw [step, nextAction_reset hr]⟩
  | false =>
    cases hb : s.busy with
    | false => exact step_idle_next ⟨hb, hr⟩
    | true =>
      obtain ⟨⟨p, hp, hu⟩, -⟩ := h.inProgress hb
      exact step_busy_next hr hb hp hu

end Sys2Proof.Machine
end

section
/-! SUPPORT. The two streams of a busy engine (20_memory.md R61, 30_encoding.md R75, 70_reset_and_hazards.md R227). Settled
here: O48. -/

namespace Sys2Proof.Machine

/-- Settles O48: of the cases of `StepTo` a busy engine without a reset is in EXEC, which keeps both streams and BUSY, or in
COMPLETE, which keeps the command stream, clears BUSY and emits its one response. -/
theorem busyEngineLeavesThePort : Obligations.BusyEngineLeavesThePort := by
  intro s t hbusy hreset hst
  cases stepTo_of_step hst with
  | reset hr => simp [hr] at hreset
  | idle _ hidle | error _ hidle | beginKeyload _ hidle | beginBlock _ hidle => simp [hbusy] at hidle
  | exec hr hb p i u hp hi hleg hu =>
    obtain ⟨-, -, -, -, hub, -, -, -, hport, hresp, -, -⟩ := exec_microOp_fields hleg hu
    exact ⟨hport, .inl ⟨hub.trans hb, hresp⟩⟩
  | complete hr hb p hp hl => exact ⟨complete_cmdPort s, .inr ⟨complete_busy s, _, complete_responses s⟩⟩

end Sys2Proof.Machine
end
